-- ==== Sys2Proof/Word.lean ====
section
/-! DEFINITION. The word types of the block: a register word (R6), a character (R19), a transaction word (R100). -/

namespace Sys2Proof

/-- One register word: 32 bits, bit 0 least significant (R6, R16). -/
abbrev Word := BitVec 32

/-- One character, and one byte offset in the window of 0x100 bytes (R19, R70). -/
abbrev Byte := BitVec 8

/-- One transaction word `we ++ off ++ wdata` of 41 bits (R100). -/
abbrev Txn := BitVec 41

end Sys2Proof
end

