-- ==== Sys2Proof/Config.lean ====
section
/-! DEFINITION. The parameters of the spec (00_scope.md R6 to R15) as one record `Cfg`, the block's resettable
state as one record `Block` (the type of the parameter `RESET`, R15), the turns of the four agents (R20), and the
free values: opaque constants with no body. -/

namespace Sys2Proof

/-- The 13 registers of the map, in address order (R103, R104). -/
inductive Reg where
  | sel0 | sel1 | data | ier | iirFcr | lcr | mcr | lsr | msr | scr | cntl | stat | baud
deriving DecidableEq, Repr, Inhabited

/-- The byte offset of each register: `OFF_<reg>` (R8). -/
structure RegMap where
  offSel0   : Byte
  offSel1   : Byte
  offData   : Byte
  offIer    : Byte
  offIirFcr : Byte
  offLcr    : Byte
  offMcr    : Byte
  offLsr    : Byte
  offMsr    : Byte
  offScr    : Byte
  offCntl   : Byte
  offStat   : Byte
  offBaud   : Byte
deriving DecidableEq, Repr

/-- The state of the block that `RESET` sets: the stored registers (R24, R26 to R31) at their stored widths, the
queues and the shifter (R33 to R35), the four sticky error flags (R36). -/
structure Block where
  /-- the select word, all 32 bits stored (R24) -/
  selw : Word
  /-- interrupt enable, 4 bits stored (R26) -/
  ier  : BitVec 4
  /-- line control, 8 bits stored (R27) -/
  lcr  : Byte
  /-- modem control, 5 bits stored (R28) -/
  mcr  : BitVec 5
  /-- scratch, 8 bits stored (R29) -/
  scr  : Byte
  /-- auxiliary control, 8 bits stored (R30) -/
  cntl : Byte
  /-- baud-rate divisor, 16 bits stored (R31) -/
  baud : BitVec 16
  /-- the transmit queue, oldest first (R33) -/
  txq  : List Byte
  /-- the character in the transmit shifter (R34) -/
  tsr  : Option Byte
  /-- the receive queue, oldest first (R35) -/
  rxq  : List Byte
  /-- overrun error (R36) -/
  oe   : Bool
  /-- parity error (R36) -/
  pe   : Bool
  /-- framing error (R36) -/
  fe   : Bool
  /-- break (R36) -/
  bi   : Bool
deriving DecidableEq, Repr

/-- The configuration record `Cfg`: one field per parameter of 00_scope.md. -/
structure Cfg where
  /-- `BASE` (R7), OPEN -/
  base       : Nat
  /-- `OFF_<reg>` (R8) -/
  map        : RegMap
  /-- `SEL_WORD` (R9) -/
  selWord    : Fin 2
  /-- `SEL_BIT` (R9) -/
  selBit     : Fin 32
  /-- `TX_DEPTH` (R10), OPEN -/
  txDepth    : Nat
  /-- `RX_DEPTH` (R10), OPEN -/
  rxDepth    : Nat
  /-- `THRE_LEVEL` (R11), OPEN -/
  threLevel  : Nat
  /-- `CLOCK_HZ` (R12), OPEN, read by the host's divisor computation only -/
  clockHz    : Nat
  /-- `TARGET_BAUD` (R12), OPEN, read by the host's divisor computation only -/
  targetBaud : Nat
  /-- `FIFO_STATE` (R13) -/
  fifoState  : BitVec 2
  /-- `LSR_COR` (R14) -/
  lsrCor     : Bool
  /-- `RESET` (R15) -/
  rst        : Block
deriving DecidableEq, Repr

/-- Whose step is next, with the environment's choices of that step (R20): the host; the transmit engine's two
steps (R261, R262); the offer of a character with its three error tags (R264) and, should the receive queue be
full, which of the two outcomes of R265 happens; the reset of the block (R360). -/
inductive Turn where
  | host
  | txLoad
  | txEmit
  | rxArrive (c : Byte) (tpe tfe tbi : Bool) (replaceOnOverrun : Bool)
  | reset
deriving DecidableEq, Repr, Inhabited

/-- A free value, `draw_w()` of R16: the `k`-th value drawn in the run, `w` bits wide, under no law (log entry 8). -/
opaque Config.draw (w k : Nat) : BitVec w

/-- A free value: the agent that moves where the schedule in the state has run out (R20; log entry 6). -/
opaque Config.freeTurn (k : Nat) : Turn

/-- A free value: any number, from which the OPEN parameter `BASE` is made (R7; log entry 2). -/
opaque Config.freeBase : Nat

/-- A free value: any number, from which the OPEN parameter `TX_DEPTH` is made (R10; log entry 2). -/
opaque Config.freeTxDepth : Nat

/-- A free value: any number, from which the OPEN parameter `RX_DEPTH` is made (R10; log entry 2). -/
opaque Config.freeRxDepth : Nat

/-- A free value: any number, from which the OPEN parameter `THRE_LEVEL` is made (R11; log entry 2). -/
opaque Config.freeThreLevel : Nat

/-- A free value: the OPEN parameter `CLOCK_HZ` (R12; log entry 2). -/
opaque Config.freeClockHz : Nat

/-- A free value: the OPEN parameter `TARGET_BAUD` (R12; log entry 2). -/
opaque Config.freeTargetBaud : Nat

end Sys2Proof
end

