-- ==== Sys2Proof/Machine/Defaults.lean ====
section
/-! DEFINITION. The values the spec decides for the parameters that have a default (R8, R9, R13 to R15, R361), and
the one configuration of `State.reset`: those defaults, and the OPEN parameters made from free values. -/

namespace Sys2Proof

/-- The default byte offsets (R8, R104). -/
def RegMap.std : RegMap :=
  { offSel0 := 0x00, offSel1 := 0x04, offData := 0x40, offIer := 0x44, offIirFcr := 0x48, offLcr := 0x4C,
    offMcr := 0x50, offLsr := 0x54, offMsr := 0x58, offScr := 0x5C, offCntl := 0x60, offStat := 0x64,
    offBaud := 0x68 }

/-- The default of the parameter `RESET` (R15): the table of reset values (R361). -/
def Block.std : Block :=
  { selw := 0x00000000, ier := 0x0, lcr := 0x00, mcr := 0x00, scr := 0x00, cntl := 0x03, baud := 0x0000,
    txq := [], tsr := none, rxq := [], oe := false, pe := false, fe := false, bi := false }

/-- `BASE`, OPEN: any multiple of 4 with `BASE + 0x100 ≤ 2^32` (R7). -/
def Config.base : Nat := 4 * (Config.freeBase % 0x3FFFFFC1)

/-- `TX_DEPTH`, OPEN: any number from 1 (R10). -/
def Config.txDepth : Nat := Config.freeTxDepth + 1

/-- `RX_DEPTH`, OPEN: any number from 1 (R10). -/
def Config.rxDepth : Nat := Config.freeRxDepth + 1

/-- `THRE_LEVEL`, OPEN: any number below `TX_DEPTH` (R11). -/
def Config.threLevel : Nat := Config.freeThreLevel % Config.txDepth

/-- The configuration of the machine after reset: the spec's defaults, and free values for what it leaves OPEN. -/
def Config.cfg : Cfg :=
  { base := Config.base, map := RegMap.std, selWord := 1, selBit := 0, txDepth := Config.txDepth,
    rxDepth := Config.rxDepth, threLevel := Config.threLevel, clockHz := Config.freeClockHz,
    targetBaud := Config.freeTargetBaud, fifoState := 0b11, lsrCor := true, rst := Block.std }

end Sys2Proof
end

