-- ==== Sys2Proof/Syntax.lean ====
section
/-! DEFINITION. The instructions of the block: the 26 bus operations of the opcode table (R104, R133). -/

namespace Sys2Proof

/-- One constructor per row of spec/opcode_table.json. A write carries the word `wdata` written; a read carries
nothing, for its `wdata` is ignored (R100). -/
inductive Instr where
  | rdSel0
  | wrSel0 (v : Word)
  | rdSel1
  | wrSel1 (v : Word)
  | rdRbr
  | wrThr (v : Word)
  | rdIer
  | wrIer (v : Word)
  | rdIir
  | wrFcr (v : Word)
  | rdLcr
  | wrLcr (v : Word)
  | rdMcr
  | wrMcr (v : Word)
  | rdLsr
  | wrLsr (v : Word)
  | rdMsr
  | wrMsr (v : Word)
  | rdScr
  | wrScr (v : Word)
  | rdCntl
  | wrCntl (v : Word)
  | rdStat
  | wrStat (v : Word)
  | rdBaud
  | wrBaud (v : Word)
deriving DecidableEq, Repr

end Sys2Proof
end

