-- ==== Sys2Proof/Decode.lean ====
section
/-! DEFINITION. The transaction word and the register map: decoding a word to an operation, total on all words,
rejecting by name (R100 to R105, R133), and the encoder written from the same map. The offsets are a parameter
(R8), so both take the map. -/

namespace Sys2Proof

/-- Why a transaction word names no operation (R101): the offset is no multiple of 4 (it raises F3), or no
register stands at it (it raises F2). -/
inductive DecodeError where
  | badAccess
  | unmapped
deriving DecidableEq, Repr

/-- All registers, in address order (R103). -/
def Reg.all : List Reg :=
  [.sel0, .sel1, .data, .ier, .iirFcr, .lcr, .mcr, .lsr, .msr, .scr, .cntl, .stat, .baud]

/-- True of the 11 registers that answer only while the UART is selected (R104, R140). -/
def Reg.gated : Reg → Bool
  | .sel0 | .sel1 => false
  | .data | .ier | .iirFcr | .lcr | .mcr | .lsr | .msr | .scr | .cntl | .stat | .baud => true

/-- The offset of a register (R8). -/
def RegMap.off (m : RegMap) : Reg → Byte
  | .sel0   => m.offSel0
  | .sel1   => m.offSel1
  | .data   => m.offData
  | .ier    => m.offIer
  | .iirFcr => m.offIirFcr
  | .lcr    => m.offLcr
  | .mcr    => m.offMcr
  | .lsr    => m.offLsr
  | .msr    => m.offMsr
  | .scr    => m.offScr
  | .cntl   => m.offCntl
  | .stat   => m.offStat
  | .baud   => m.offBaud

/-- The register that stands at an offset, if any: the set `MAP` of R140. -/
def RegMap.lookup (m : RegMap) (off : Byte) : Option Reg :=
  Reg.all.find? (fun r => m.off r == off)

/-- The direction bit `we`, bit 40 (R100). -/
def txnWe (t : Txn) : Bool := t.getLsbD 40

/-- The offset field, bits 39:32 (R100). -/
def txnOff (t : Txn) : Byte := t.extractLsb' 32 8

/-- The data field, bits 31:0 (R100). -/
def txnData (t : Txn) : Word := t.extractLsb' 0 32

/-- The word `we ++ off ++ wdata` (R100). -/
def mkTxn (we : Bool) (off : Byte) (wdata : Word) : Txn := BitVec.ofBool we ++ off ++ wdata

/-- The operation that is the read-view of a register (R104, R105). -/
def readView : Reg → Instr
  | .sel0   => .rdSel0
  | .sel1   => .rdSel1
  | .data   => .rdRbr
  | .ier    => .rdIer
  | .iirFcr => .rdIir
  | .lcr    => .rdLcr
  | .mcr    => .rdMcr
  | .lsr    => .rdLsr
  | .msr    => .rdMsr
  | .scr    => .rdScr
  | .cntl   => .rdCntl
  | .stat   => .rdStat
  | .baud   => .rdBaud

/-- The operation that is the write-view of a register (R104, R105). -/
def writeView (v : Word) : Reg → Instr
  | .sel0   => .wrSel0 v
  | .sel1   => .wrSel1 v
  | .data   => .wrThr v
  | .ier    => .wrIer v
  | .iirFcr => .wrFcr v
  | .lcr    => .wrLcr v
  | .mcr    => .wrMcr v
  | .lsr    => .wrLsr v
  | .msr    => .wrMsr v
  | .scr    => .wrScr v
  | .cntl   => .wrCntl v
  | .stat   => .wrStat v
  | .baud   => .wrBaud v

/-- Decoding a transaction word: alignment, then the map, then the direction chooses the view (R101, R102). The
two checks of R101 that depend on the state, F1 and F6, are made by the operation (`Machine.gateFault`). -/
def decode (m : RegMap) (t : Txn) : Except DecodeError Instr :=
  if (txnOff t).toNat % 4 ≠ 0 then .error .badAccess
  else match m.lookup (txnOff t) with
    | none   => .error .unmapped
    | some r => .ok (if txnWe t then writeView (txnData t) r else readView r)

/-- The direction, the register and the data word of an operation (0 for a read: the canonical value, R100). -/
def instrFields : Instr → Bool × Reg × Word
  | .rdSel0   => (false, .sel0, 0)
  | .wrSel0 v => (true, .sel0, v)
  | .rdSel1   => (false, .sel1, 0)
  | .wrSel1 v => (true, .sel1, v)
  | .rdRbr    => (false, .data, 0)
  | .wrThr v  => (true, .data, v)
  | .rdIer    => (false, .ier, 0)
  | .wrIer v  => (true, .ier, v)
  | .rdIir    => (false, .iirFcr, 0)
  | .wrFcr v  => (true, .iirFcr, v)
  | .rdLcr    => (false, .lcr, 0)
  | .wrLcr v  => (true, .lcr, v)
  | .rdMcr    => (false, .mcr, 0)
  | .wrMcr v  => (true, .mcr, v)
  | .rdLsr    => (false, .lsr, 0)
  | .wrLsr v  => (true, .lsr, v)
  | .rdMsr    => (false, .msr, 0)
  | .wrMsr v  => (true, .msr, v)
  | .rdScr    => (false, .scr, 0)
  | .wrScr v  => (true, .scr, v)
  | .rdCntl   => (false, .cntl, 0)
  | .wrCntl v => (true, .cntl, v)
  | .rdStat   => (false, .stat, 0)
  | .wrStat v => (true, .stat, v)
  | .rdBaud   => (false, .baud, 0)
  | .wrBaud v => (true, .baud, v)

/-- Whether an operation is a write. -/
def Instr.we (i : Instr) : Bool := (instrFields i).1

/-- The register an operation addresses. -/
def Instr.reg (i : Instr) : Reg := (instrFields i).2.1

/-- The data word of an operation. -/
def Instr.wdata (i : Instr) : Word := (instrFields i).2.2

/-- The canonical transaction word of an operation (R100, R102). -/
def encode (m : RegMap) (i : Instr) : Txn := mkTxn i.we (m.off i.reg) i.wdata

/-- The 41-bit word in the low `nbits` bits of a number, if no bit above bit 40 is set (log entry 17). -/
def tableTxn (nbits w : Nat) : Option Txn :=
  if w % 2 ^ nbits < 2 ^ 41 then some (BitVec.ofNat 41 (w % 2 ^ nbits)) else none

/-- What the decoder reads, with the default offsets, from an operation whose bits, numbered as the opcode table
numbers them, are `w`. -/
def decodeTableWord (nbits w : Nat) : Option Instr :=
  match tableTxn nbits w with
  | none   => none
  | some t => match decode RegMap.std t with
    | .ok i    => some i
    | .error _ => none

end Sys2Proof
end

