-- ==== Sys2Proof/Machine/State.lean ====
section
/-! DEFINITION. The state of the machine as plain data, the reasons a step can stop, and the state after reset. -/

namespace Sys2Proof.Machine

/-- The fault codes the spec's rules record in the sticky set `fault` (R321 to R328). None of them stops a step. -/
inductive FaultCode where
  | f1 | f2 | f3 | f4 | f5 | f6 | f7 | f8 | f9
deriving DecidableEq, Repr

/-- The refusal codes the spec's rules record in the sticky set `refused` (R329). None of them stops a step. -/
inductive RefuseCode where
  | x1 | x2 | x3 | x4 | x5
deriving DecidableEq, Repr

/-- The sticky set of fault codes, one membership bit a code (R42). -/
structure FaultSet where
  /-- UNSELECTED (R321) -/
  f1 : Bool
  /-- UNMAPPED (R322) -/
  f2 : Bool
  /-- BAD_ACCESS (R323) -/
  f3 : Bool
  /-- TX_OVERFLOW (R324) -/
  f4 : Bool
  /-- RX_EMPTY_READ (R325) -/
  f5 : Bool
  /-- MODE_FLAG_ACCESS (R326) -/
  f6 : Bool
  /-- RECLAIM (R327) -/
  f7 : Bool
  /-- NO_CLAIM (R328) -/
  f8 : Bool
  /-- ACC_UNWRITTEN (R328) -/
  f9 : Bool
deriving DecidableEq, Repr

/-- The sticky set of refusal codes, one membership bit a code (R42, R329). -/
structure RefuseSet where
  /-- IER_MODEM -/
  x1 : Bool
  /-- LOOPBACK -/
  x2 : Bool
  /-- AUTOFLOW -/
  x3 : Bool
  /-- BREAK -/
  x4 : Bool
  /-- DIVISOR_RANGE -/
  x5 : Bool
deriving DecidableEq, Repr

/-- A frame on the transmit line: the character as sent and the line configuration at emission (R39). -/
structure Frame where
  char : Byte
  wls  : BitVec 2
  stb  : Bool
  par  : BitVec 3
  div  : BitVec 16
deriving DecidableEq, Repr

/-- What became of an offered character (R43). -/
inductive RxOutcome where
  | stored | overrunDrop | overrunReplace | ignored
deriving DecidableEq, Repr

/-- The events of the history (R43). -/
inductive Event where
  /-- a transaction: direction, offset, the word written or the word returned -/
  | bus (we : Bool) (off : Byte) (data : Word)
  | txLoad (c : Byte)
  | txEmit (f : Frame)
  | rx (c : Byte) (pe fe bi : Bool) (outcome : RxOutcome)
  | fifoClr (rx tx : Bool)
  | reset
  | fault (code : FaultCode)
  | refuse (code : RefuseCode)
deriving DecidableEq, Repr

/-- The names of the host-script grammar that have a read-view (R131). -/
inductive RName where
  | sel0 | sel1 | selw | rbr | ier | iir | lcr | mcr | lsr | msr | scr | cntl | stat | baud
deriving DecidableEq, Repr

/-- The names of the host-script grammar that have a write-view the protocol may use (R131). -/
inductive WName where
  | sel0 | sel1 | selw | thr | ier | fcr | lcr | mcr | scr | cntl | baud
deriving DecidableEq, Repr

/-- One operation of the host script (R131, R280), labels resolved to script indices. After the grammar's seven
stand four operations of the model: the check of INIT's divisor that fails (R300; log entry 15), and the host's
accesses the grammar cannot spell (R131): a transaction word at the block's port (R100) and the two access
primitives at a byte address, of `n` bytes (R71, R72; log entry 11). -/
inductive HostOp where
  | claim
  | rd (r : RName)
  | wr (w : WName) (imm : Word)
  | wrm (w : WName) (clr set : Word)
  | brz (mask : Word) (target : Nat)
  | ret8
  | halt
  | refuseDivisor
  | bus (t : Txn)
  | memRead (addr n : Nat)
  | memWrite (addr n v : Nat)
deriving DecidableEq, Repr

/-- The state. `blk` is what `RESET` sets; `lineOut`, `fault`, `refused`, `hist` are the spec's bookkeeping; `hpc`,
`acc`, `out`, `claimed` are the host's; `cfg`, `script` and `turns` are the parameters of the spec's step relation
(R21), carried as data (log entries 1, 5, 6); `draws` is the model's own. -/
structure State where
  /-- the parameters (R6 to R15); no step changes them (R48) -/
  cfg     : Cfg
  /-- registers, queues, shifter and error flags of the block (R24 to R36) -/
  blk     : Block
  /-- the frames put on the transmit line, oldest first (R39) -/
  lineOut : List Frame
  /-- the sticky fault codes (R42) -/
  fault   : FaultSet
  /-- the sticky refusal codes (R42) -/
  refused : RefuseSet
  /-- the event history, oldest first (R43) -/
  hist    : List Event
  /-- the host's script counter (R23) -/
  hpc     : Nat
  /-- the host's register: the word of its last bus read, or unwritten (R22) -/
  acc     : Option Word
  /-- the bytes `read_byte` has returned, oldest first (R44) -/
  out     : List Byte
  /-- whether the one-time claim has been made (R44) -/
  claimed : Bool
  /-- the host script (R21, R280) -/
  script  : List HostOp
  /-- whose turns come next (R20, R79) -/
  turns   : List Turn
  /-- how many free values have been drawn -/
  draws   : Nat
deriving DecidableEq, Repr

/-- Why the machine stops with a fault. The spec's own fault codes stop nothing (R320): they are recorded in
`State.fault`. -/
inductive Fault where
  /-- Raised by the host operations `memRead` and `memWrite` at an address outside `BASE .. BASE + 0xFF`, which "is
  not the block's and is outside this spec" (R70). Safe: the model stops where the platform goes on. -/
  | outsideBlock
deriving DecidableEq, Repr

/-- Why the model gives a step no meaning. -/
inductive Refusal where
  /-- Raised by an arm of `exec` for an instruction with no meaning yet; no arm raises it. Safe: the model stops. -/
  | notModelled (mnemonic : String)
deriving DecidableEq, Repr

/-- The empty set of fault codes. -/
def FaultSet.empty : FaultSet :=
  { f1 := false, f2 := false, f3 := false, f4 := false, f5 := false, f6 := false, f7 := false, f8 := false,
    f9 := false }

/-- The empty set of refusal codes. -/
def RefuseSet.empty : RefuseSet := { x1 := false, x2 := false, x3 := false, x4 := false, x5 := false }

/-- The start of a run: power-on is the first `RESET` and defines the initial state (R360); the block at the reset
values (R361), the bookkeeping empty (R362), the host at `hpc = 0` with `acc` unwritten and nothing claimed (R22,
R23, R44, R372). No script and no schedule are loaded (log entries 5, 6). -/
def State.reset : State :=
  { cfg := Config.cfg, blk := Config.cfg.rst, lineOut := [], fault := FaultSet.empty, refused := RefuseSet.empty,
    hist := [], hpc := 0, acc := none, out := [], claimed := false, script := [], turns := [], draws := 0 }

end Sys2Proof.Machine
end

