-- ==== Sys2Proof/Machine/Operands.lean ====
section
/-! DEFINITION. Operand assembly: the masked field get and set (R18), the truncation of a written word (R125), the
character and divisor operands (R126 to R128), the word-length mask (R130), the byte lanes (R74). -/

namespace Sys2Proof.Machine

/-- `((1 << (hi-lo+1)) - 1) << lo` (R18). -/
def fieldMask (hi lo : Nat) : Word := ((1#32 <<< (hi - lo + 1)) - 1#32) <<< lo

/-- The masked get (R18). -/
def getField (w : Word) (hi lo : Nat) : Word := (w &&& fieldMask hi lo) >>> lo

/-- The masked set (R18). -/
def setField (w : Word) (hi lo : Nat) (f : Word) : Word :=
  (w &&& ~~~(fieldMask hi lo)) ||| ((f <<< lo) &&& fieldMask hi lo)

/-- The word a `WRM` writes: `(acc & ~clr) | set` (R284). -/
def mergeMasks (acc clr set : Word) : Word := (acc &&& ~~~clr) ||| set

/-- `zext_32` (R16). -/
def zext {k : Nat} (v : BitVec k) : Word := v.setWidth 32

/-- A written word cut to the `k` stored bits of a register (R125). -/
def truncTo (k : Nat) (v : Word) : BitVec k := v.setWidth k

/-- `wlmask(WLS) = (1 << (5 + WLS)) - 1` (R130). -/
def wlmask (wls : BitVec 2) : Byte := BitVec.ofNat 8 (2 ^ (5 + wls.toNat) - 1)

/-- The byte that byte address `BASE + off + k` carries of a word, `k` in 0..3: little-endian lanes, on which no rule
depends (R74). -/
def byteLane (w : Word) (k : Nat) : Byte := w.extractLsb' (8 * k) 8

/-- `floor(floor(CLOCK_HZ / 8) / TARGET_BAUD)`; a baud rate of 0 is outside the formula (R128). -/
def divisor (clockHz targetBaud : Nat) : Option Nat :=
  if targetBaud = 0 then none else some (clockHz / 8 / targetBaud)

end Sys2Proof.Machine
end

