-- ==== Sys2Proof/Machine/Flags.lean ====
section
/-! DEFINITION. The derived flags (R37), the mode and enable bits, the status words built from the flags (R194, R222,
R245), the interrupt conditions and output (R330, R331), the pin requests (R40). -/

namespace Sys2Proof.Machine

/-- `USEL = reg.SELW[SEL_BIT]` (R24). -/
def State.usel (s : State) : Bool := s.blk.selw.getLsbD s.cfg.selBit.val

/-- The mode flag `DLAB = reg.LCR[7]` (R213). -/
def State.dlab (s : State) : Bool := s.blk.lcr.getLsbD 7

/-- `RXE = reg.CNTL[0]` (R242). -/
def State.rxe (s : State) : Bool := s.blk.cntl.getLsbD 0

/-- `TXE = reg.CNTL[1]` (R242). -/
def State.txe (s : State) : Bool := s.blk.cntl.getLsbD 1

/-- The word-length field `WLS = reg.LCR[1:0]` (R112). -/
def State.wls (s : State) : BitVec 2 := s.blk.lcr.extractLsb' 0 2

/-- Data available (R37). -/
def State.dr (s : State) : Bool := decide (0 < s.blk.rxq.length)

/-- Transmit holding empty (R37). -/
def State.thre (s : State) : Bool := decide (s.blk.txq.length ≤ s.cfg.threLevel)

/-- Transmitter empty (R37). -/
def State.temt (s : State) : Bool := s.blk.txq.isEmpty && s.blk.tsr.isNone

/-- The line-status word, bit 7 down to bit 0 (R222, R114). -/
def State.lsrWord (s : State) : Word :=
  zext (0#1 ++ BitVec.ofBool s.temt ++ BitVec.ofBool s.thre ++ BitVec.ofBool s.blk.bi ++ BitVec.ofBool s.blk.fe
    ++ BitVec.ofBool s.blk.pe ++ BitVec.ofBool s.blk.oe ++ BitVec.ofBool s.dr)

/-- The auxiliary-status word from bit 31 down to bit 0 (R245, R118), with the three drawn bits: receiver idle, RTS
pin status, CTS pin level. -/
def State.statWord (s : State) (rxIdle rtsSt ctsLn : BitVec 1) : Word :=
  0#4 ++ BitVec.ofNat 4 (min s.blk.txq.length 15) ++ 0#4 ++ BitVec.ofNat 4 (min s.blk.rxq.length 15) ++ 0#6
    ++ BitVec.ofBool s.temt ++ BitVec.ofBool s.blk.txq.isEmpty ++ ctsLn ++ rtsSt
    ++ BitVec.ofBool (s.blk.txq.length == s.cfg.txDepth) ++ BitVec.ofBool s.blk.oe ++ BitVec.ofBool s.blk.tsr.isNone
    ++ rxIdle ++ BitVec.ofBool (decide (s.blk.txq.length < s.cfg.txDepth)) ++ BitVec.ofBool s.dr

/-- Receiver line status pending (R330). -/
def State.pending1 (s : State) : Bool := s.blk.ier.getLsbD 2 && (s.blk.oe || s.blk.pe || s.blk.fe || s.blk.bi)

/-- Received data pending (R330). -/
def State.pending2 (s : State) : Bool := s.blk.ier.getLsbD 0 && s.dr

/-- Transmit holding empty pending (R330). -/
def State.pending3 (s : State) : Bool := s.blk.ier.getLsbD 1 && s.thre

/-- The identity field and the no-interrupt-pending bit, by priority (R194, R332). -/
def State.iidNip (s : State) : BitVec 3 × BitVec 1 :=
  if s.pending1 then (0b011#3, 0#1)
  else if s.pending2 then (0b010#3, 0#1)
  else if s.pending3 then (0b001#3, 0#1)
  else (0b000#3, 1#1)

/-- The interrupt-identification word `FIFO_STATE ++ 0b00 ++ iid ++ nip` (R194, R110). -/
def State.iirWord (s : State) : Word := zext (s.cfg.fifoState ++ 0#2 ++ s.iidNip.1 ++ s.iidNip.2)

/-- The interrupt output (R331, R41). -/
def State.irq (s : State) : Bool := s.usel && (s.pending1 || s.pending2 || s.pending3)

/-- The request-to-send pin request (R40). -/
def State.rtsReq (s : State) : Bool := s.blk.mcr.getLsbD 1

/-- The data-terminal-ready pin request (R40). -/
def State.dtrReq (s : State) : Bool := s.blk.mcr.getLsbD 0

/-- The frame `TX_EMIT` puts on the line for a character, with the configuration in force (R262). -/
def State.frameOf (s : State) (c : Byte) : Frame :=
  { char := c &&& wlmask s.wls, wls := s.wls, stb := s.blk.lcr.getLsbD 2, par := s.blk.lcr.extractLsb' 3 3,
    div := s.blk.baud }

end Sys2Proof.Machine
end

