-- ==== Sys2Proof/Machine/Ops.lean ====
section
/-! DEFINITION. The named operations over the state: the history, the sticky sets, free values, the two entry points
`BusRead` and `BusWrite` every register access goes through (R140, R141), the ownership check (R288), the schedule.
The block has no trap entry and no trap return (R320, R334, R335); what an access that breaks a rule does is
`State.raise` and `State.refuse`, once for all instructions. -/

namespace Sys2Proof.Machine

/-- What a step answers. -/
abbrev Result := Host.Outcome State Fault Refusal

/-- Adds a code to the sticky set (R42). -/
def FaultSet.add (q : FaultSet) : FaultCode → FaultSet
  | .f1 => { q with f1 := true }
  | .f2 => { q with f2 := true }
  | .f3 => { q with f3 := true }
  | .f4 => { q with f4 := true }
  | .f5 => { q with f5 := true }
  | .f6 => { q with f6 := true }
  | .f7 => { q with f7 := true }
  | .f8 => { q with f8 := true }
  | .f9 => { q with f9 := true }

/-- Whether a code is in the set. -/
def FaultSet.has (q : FaultSet) : FaultCode → Bool
  | .f1 => q.f1
  | .f2 => q.f2
  | .f3 => q.f3
  | .f4 => q.f4
  | .f5 => q.f5
  | .f6 => q.f6
  | .f7 => q.f7
  | .f8 => q.f8
  | .f9 => q.f9

/-- Adds a code to the sticky set (R42). -/
def RefuseSet.add (q : RefuseSet) : RefuseCode → RefuseSet
  | .x1 => { q with x1 := true }
  | .x2 => { q with x2 := true }
  | .x3 => { q with x3 := true }
  | .x4 => { q with x4 := true }
  | .x5 => { q with x5 := true }

/-- Whether a code is in the set. -/
def RefuseSet.has (q : RefuseSet) : RefuseCode → Bool
  | .x1 => q.x1
  | .x2 => q.x2
  | .x3 => q.x3
  | .x4 => q.x4
  | .x5 => q.x5

/-- `hist ++= e` (R17, R43). -/
def State.log (e : Event) (s : State) : State := { s with hist := s.hist ++ [e] }

/-- Adds a fault code to the sticky set. -/
def State.addFault (c : FaultCode) (s : State) : State := { s with fault := s.fault.add c }

/-- Adds a refusal code to the sticky set. -/
def State.addRefuse (c : RefuseCode) (s : State) : State := { s with refused := s.refused.add c }

/-- `raise Fault(F<k>)`: the code goes into the sticky set and into the history, and the step goes on (R17, R145,
R320). -/
def State.raise (c : FaultCode) (s : State) : State := (s.addFault c).log (.fault c)

/-- `refuse(X<k>)`: the code goes into the sticky set and into the history, and the step goes on (R17, R320). -/
def State.refuse (c : RefuseCode) (s : State) : State := (s.addRefuse c).log (.refuse c)

/-- Refuses when a bit asks for a feature that has no meaning (R121, R329). -/
def State.refuseIf (b : Bool) (c : RefuseCode) (s : State) : State := if b then s.refuse c else s

/-- Replaces the block's registers, queues and flags. -/
def State.setBlk (b : Block) (s : State) : State := { s with blk := b }

/-- Writes the host's register (R22). -/
def State.setAcc (v : Word) (s : State) : State := { s with acc := some v }

/-- The next free value, `w` bits wide: `draw_w()` (R16; log entry 8). -/
def State.free (w : Nat) (s : State) : BitVec w := Config.draw w s.draws

/-- One free value has been taken. -/
def State.drew (s : State) : State := { s with draws := s.draws + 1 }

/-- `hpc <- hpc + 1` (R23). -/
def State.advance (s : State) : State := { s with hpc := s.hpc + 1 }

/-- Applies a change to the next state of a result. -/
def onNext (f : State → State) : Result → Result
  | .next s    => .next (f s)
  | .fault r   => .fault r
  | .refused r => .refused r

/-- The fault of a mapped offset that depends on the state: F1, a gated register while unselected; then F6, `DATA`
or `IER` under the mode flag (R101, R140, R213). -/
def State.gateFault (r : Reg) (s : State) : Option FaultCode :=
  if r.gated && !s.usel then some .f1
  else if (r == .data || r == .ier) && s.dlab then some .f6
  else none

/-- The end of a read transaction: its `Bus` event (R145), and the word returned is the host's (R22). -/
def State.endRead (off : Byte) (v : Word) (s : State) : State := (s.log (.bus false off v)).setAcc v

/-- The end of a write transaction: its `Bus` event (R145). -/
def State.endWrite (off : Byte) (v : Word) (s : State) : State := s.log (.bus true off v)

/-- A read that faults: it records the code and returns a 32-bit draw, and changes nothing else (R140). -/
def faultRead (c : FaultCode) (off : Byte) (s : State) : State :=
  ((s.raise c).drew).endRead off ((s.raise c).free 32)

/-- A write that faults: it records the code, stores nothing and triggers nothing (R141). -/
def faultWrite (c : FaultCode) (off : Byte) (v : Word) (s : State) : State := (s.raise c).endWrite off v

/-- `BusRead` at the offset of a mapped register (R140): the checks, else the register's read-view. -/
def busRead (r : Reg) (view : State → Word × State) (s : State) : Result :=
  match s.gateFault r with
  | some c => .next (faultRead c (s.cfg.map.off r) s)
  | none   => .next ((view s).2.endRead (s.cfg.map.off r) (view s).1)

/-- `BusWrite` at the offset of a mapped register (R141): the checks, else the register's write-view. -/
def busWrite (r : Reg) (view : Word → State → State) (v : Word) (s : State) : Result :=
  match s.gateFault r with
  | some c => .next (faultWrite c (s.cfg.map.off r) v s)
  | none   => .next ((view v s).endWrite (s.cfg.map.off r) v)

/-- The read-view of a stored register of `k` bits: the stored bits, zero above, no side effect (R106). -/
def readStored {k : Nat} (get : Block → BitVec k) (s : State) : Word × State := (zext (get s.blk), s)

/-- The write-view of a register whose writes are ignored (R121). -/
def ignoreWrite (_ : Word) (s : State) : State := s

/-- The ownership check of the host's bus operations: F8, and the operation goes on (R288). -/
def State.checkClaim (s : State) : State := if s.claimed then s else s.raise .f8

/-- Whose turn it is: the head of the schedule, or a free value where it has run out (R20; log entry 6). -/
def State.nextTurn (s : State) : Turn :=
  match s.turns with
  | t :: _ => t
  | []     => Config.freeTurn s.draws

/-- The state once that turn has been taken from the schedule. -/
def State.takeTurn (s : State) : State :=
  match s.turns with
  | _ :: rest => { s with turns := rest }
  | []        => s.drew

end Sys2Proof.Machine
end

