-- ==== Sys2Proof/Machine/AuxBaud.lean ====
section
/-! DEFINITION. Auxiliary control, auxiliary status, baud-rate divisor (45_aux_baud.md). -/

namespace Sys2Proof.Machine

/-- `CNTL` keeps `v[7:0]`; automatic flow control is refused (R241). -/
def writeCntl (v : Word) (s : State) : State :=
  (s.setBlk { s.blk with cntl := truncTo 8 v }).refuseIf (v.getLsbD 2 || v.getLsbD 3) .x3

/-- The auxiliary-status word with three drawn bits, drawn in the order of R245. -/
def readStat (s : State) : Word × State :=
  (s.statWord (s.free 1) (s.drew.free 1) (s.drew.drew.free 1), s.drew.drew.drew)

/-- `BAUD` keeps `v[15:0]` (R248). -/
def writeBaud (v : Word) (s : State) : State := s.setBlk { s.blk with baud := truncTo 16 v }

/-- `RD_CNTL` (R240). -/
def execRdCntl (s : State) : Result := busRead .cntl (readStored Block.cntl) s

/-- `WR_CNTL` (R241). -/
def execWrCntl (v : Word) (s : State) : Result := busWrite .cntl writeCntl v s

/-- `RD_STAT` (R245). -/
def execRdStat (s : State) : Result := busRead .stat readStat s

/-- `WR_STAT`: ignored (R246). -/
def execWrStat (v : Word) (s : State) : Result := busWrite .stat ignoreWrite v s

/-- `RD_BAUD` (R247). -/
def execRdBaud (s : State) : Result := busRead .baud (readStored Block.baud) s

/-- `WR_BAUD` (R248). -/
def execWrBaud (v : Word) (s : State) : Result := busWrite .baud writeBaud v s

end Sys2Proof.Machine
end

