-- ==== Sys2Proof/Machine/DataRegister.lean ====
section
/-! DEFINITION. The data register: receive buffer and transmit holding (42_data_register.md). -/

namespace Sys2Proof.Machine

/-- The read-view: the oldest unread character is removed and returned; with none, F5 and an 8-bit draw (R170,
R172). -/
def readRbr (s : State) : Word × State :=
  match s.blk.rxq with
  | []        => (zext ((s.raise .f5).free 8), (s.raise .f5).drew)
  | c :: rest => (zext c, s.setBlk { s.blk with rxq := rest })

/-- The write-view: the low byte joins the transmit queue; with no room, F4 and the character is discarded (R173,
R174). -/
def writeThr (v : Word) (s : State) : State :=
  if s.blk.txq.length = s.cfg.txDepth then s.raise .f4
  else s.setBlk { s.blk with txq := s.blk.txq ++ [truncTo 8 v] }

/-- `RD_RBR` (R170). -/
def execRdRbr (s : State) : Result := busRead .data readRbr s

/-- `WR_THR` (R173). -/
def execWrThr (v : Word) (s : State) : Result := busWrite .data writeThr v s

end Sys2Proof.Machine
end

