-- ==== Sys2Proof/Machine/InterruptFifo.lean ====
section
/-! DEFINITION. Interrupt enable, interrupt identification, FIFO control (43_interrupt_fifo_control.md). -/

namespace Sys2Proof.Machine

/-- `IER` keeps `v[3:0]`; the modem-status enable is refused (R191). -/
def writeIer (v : Word) (s : State) : State :=
  (s.setBlk { s.blk with ier := truncTo 4 v }).refuseIf (v.getLsbD 3) .x1

/-- The identification of the highest pending source; the read clears nothing (R194). -/
def readIir (s : State) : Word × State := (s.iirWord, s)

/-- The two clear pulses of `FCR`, and their event; nothing is stored (R197). -/
def writeFcr (v : Word) (s : State) : State :=
  if v.getLsbD 1 || v.getLsbD 2 then
    (s.setBlk { s.blk with
        rxq := if v.getLsbD 1 then [] else s.blk.rxq,
        txq := if v.getLsbD 2 then [] else s.blk.txq }).log (.fifoClr (v.getLsbD 1) (v.getLsbD 2))
  else s

/-- `RD_IER` (R190). -/
def execRdIer (s : State) : Result := busRead .ier (readStored Block.ier) s

/-- `WR_IER` (R191). -/
def execWrIer (v : Word) (s : State) : Result := busWrite .ier writeIer v s

/-- `RD_IIR` (R194). -/
def execRdIir (s : State) : Result := busRead .iirFcr readIir s

/-- `WR_FCR` (R197). -/
def execWrFcr (v : Word) (s : State) : Result := busWrite .iirFcr writeFcr v s

end Sys2Proof.Machine
end

