-- ==== Sys2Proof/Machine/LineModemScratch.lean ====
section
/-! DEFINITION. Line control, modem control, line status, modem status, scratch (44_line_modem_scratch.md). -/

namespace Sys2Proof.Machine

/-- `LCR` keeps `v[7:0]`; break control is refused (R211). -/
def writeLcr (v : Word) (s : State) : State :=
  (s.setBlk { s.blk with lcr := truncTo 8 v }).refuseIf (v.getLsbD 6) .x4

/-- `MCR` keeps `v[4:0]`; loop-back is refused (R217). -/
def writeMcr (v : Word) (s : State) : State :=
  (s.setBlk { s.blk with mcr := truncTo 5 v }).refuseIf (v.getLsbD 4) .x2

/-- The line-status word; the read then clears the error flags when `LSR_COR` holds (R222). -/
def readLsr (s : State) : Word × State :=
  (s.lsrWord,
    if s.cfg.lsrCor then s.setBlk { s.blk with oe := false, pe := false, fe := false, bi := false } else s)

/-- The modem-status byte: a draw (R226). -/
def readMsr (s : State) : Word × State := (zext (s.free 8), s.drew)

/-- `SCR` keeps `v[7:0]` (R231). -/
def writeScr (v : Word) (s : State) : State := s.setBlk { s.blk with scr := truncTo 8 v }

/-- `RD_LCR` (R210). -/
def execRdLcr (s : State) : Result := busRead .lcr (readStored Block.lcr) s

/-- `WR_LCR` (R211). -/
def execWrLcr (v : Word) (s : State) : Result := busWrite .lcr writeLcr v s

/-- `RD_MCR` (R216). -/
def execRdMcr (s : State) : Result := busRead .mcr (readStored Block.mcr) s

/-- `WR_MCR` (R217). -/
def execWrMcr (v : Word) (s : State) : Result := busWrite .mcr writeMcr v s

/-- `RD_LSR` (R222). -/
def execRdLsr (s : State) : Result := busRead .lsr readLsr s

/-- `WR_LSR`: ignored (R223). -/
def execWrLsr (v : Word) (s : State) : Result := busWrite .lsr ignoreWrite v s

/-- `RD_MSR` (R226). -/
def execRdMsr (s : State) : Result := busRead .msr readMsr s

/-- `WR_MSR`: ignored (R227). -/
def execWrMsr (v : Word) (s : State) : Result := busWrite .msr ignoreWrite v s

/-- `RD_SCR` (R230). -/
def execRdScr (s : State) : Result := busRead .scr (readStored Block.scr) s

/-- `WR_SCR` (R231). -/
def execWrScr (v : Word) (s : State) : Result := busWrite .scr writeScr v s

end Sys2Proof.Machine
end

