-- ==== Sys2Proof/Machine/SelectPair.lean ====
section
/-! DEFINITION. The mux/enable pair (41_select_pair.md). -/

namespace Sys2Proof.Machine

/-- `RD_SELW` (R161). -/
def readSelw : State → Word × State := readStored Block.selw

/-- `WR_SELW` (R162). -/
def writeSelw (v : Word) (s : State) : State := s.setBlk { s.blk with selw := v }

/-- `RD_SELC`: a 32-bit draw (R163). -/
def readSelc (s : State) : Word × State := (s.free 32, s.drew)

/-- The read of word `k` of the pair, which is the select word or its companion (R160). -/
def readSel (k : Fin 2) (s : State) : Word × State := if s.cfg.selWord = k then readSelw s else readSelc s

/-- The write of word `k` of the pair; a write of the companion is ignored (R160, R164). -/
def writeSel (k : Fin 2) (v : Word) (s : State) : State :=
  if s.cfg.selWord = k then writeSelw v s else ignoreWrite v s

/-- `RD_SEL0` (R160). -/
def execRdSel0 (s : State) : Result := busRead .sel0 (readSel 0) s

/-- `WR_SEL0` (R160). -/
def execWrSel0 (v : Word) (s : State) : Result := busWrite .sel0 (writeSel 0) v s

/-- `RD_SEL1` (R160). -/
def execRdSel1 (s : State) : Result := busRead .sel1 (readSel 1) s

/-- `WR_SEL1` (R160). -/
def execWrSel1 (v : Word) (s : State) : Result := busWrite .sel1 (writeSel 1) v s

end Sys2Proof.Machine
end

