-- ==== Sys2Proof/Machine/Dispatch.lean ====
section
/-! DEFINITION. One arm per bus operation. -/

namespace Sys2Proof.Machine

def exec (i : Instr) (s : State) : Host.Outcome State Fault Refusal :=
  match i with
  | .rdSel0 => Sys2Proof.Machine.execRdSel0 s
  | .wrSel0 v => Sys2Proof.Machine.execWrSel0 v s
  | .rdSel1 => Sys2Proof.Machine.execRdSel1 s
  | .wrSel1 v => Sys2Proof.Machine.execWrSel1 v s
  | .rdRbr => Sys2Proof.Machine.execRdRbr s
  | .wrThr v => Sys2Proof.Machine.execWrThr v s
  | .rdIer => Sys2Proof.Machine.execRdIer s
  | .wrIer v => Sys2Proof.Machine.execWrIer v s
  | .rdIir => Sys2Proof.Machine.execRdIir s
  | .wrFcr v => Sys2Proof.Machine.execWrFcr v s
  | .rdLcr => Sys2Proof.Machine.execRdLcr s
  | .wrLcr v => Sys2Proof.Machine.execWrLcr v s
  | .rdMcr => Sys2Proof.Machine.execRdMcr s
  | .wrMcr v => Sys2Proof.Machine.execWrMcr v s
  | .rdLsr => Sys2Proof.Machine.execRdLsr s
  | .wrLsr v => Sys2Proof.Machine.execWrLsr v s
  | .rdMsr => Sys2Proof.Machine.execRdMsr s
  | .wrMsr v => Sys2Proof.Machine.execWrMsr v s
  | .rdScr => Sys2Proof.Machine.execRdScr s
  | .wrScr v => Sys2Proof.Machine.execWrScr v s
  | .rdCntl => Sys2Proof.Machine.execRdCntl s
  | .wrCntl v => Sys2Proof.Machine.execWrCntl v s
  | .rdStat => Sys2Proof.Machine.execRdStat s
  | .wrStat v => Sys2Proof.Machine.execWrStat v s
  | .rdBaud => Sys2Proof.Machine.execRdBaud s
  | .wrBaud v => Sys2Proof.Machine.execWrBaud v s

end Sys2Proof.Machine
end

