-- ==== Sys2Proof/Machine/Engines.lean ====
section
/-! DEFINITION. The autonomous steps: the transmit engine, the receive engine with the environment (46_engines.md),
and the reset of the block (R360). A step that is not enabled changes nothing: the turn passes (log entry 7). -/

namespace Sys2Proof.Machine

/-- `TX_LOAD`: enabled iff selected, transmitter enabled, shifter free and a character queued; the head of the queue
enters the shifter (R261). -/
def txLoad (s : State) : State :=
  match s.usel && s.txe, s.blk.tsr, s.blk.txq with
  | true, none, c :: rest => (s.setBlk { s.blk with txq := rest, tsr := some c }).log (.txLoad c)
  | _, _, _ => s

/-- `TX_EMIT`: enabled iff selected and the shifter is occupied; the frame goes on the line (R262). -/
def txEmit (s : State) : State :=
  match s.usel, s.blk.tsr with
  | true, some c =>
    ({ s.setBlk { s.blk with tsr := none } with lineOut := s.lineOut ++ [s.frameOf c] }).log (.txEmit (s.frameOf c))
  | _, _ => s

/-- The sticky flags with the tags of an arriving character or-ed in (R264). -/
def Block.addTags (b : Block) (tpe tfe tbi : Bool) : Block :=
  { b with pe := b.pe || tpe, fe := b.fe || tfe, bi := b.bi || tbi }

/-- `RX_ARRIVE`: ignored while unselected or the receiver is disabled (R266); stored while there is room (R264);
else an overrun, whose new character is lost or replaces the newest unread one (R265). The character is masked by
the word length when it enters. -/
def rxArrive (c : Byte) (tpe tfe tbi replaceOnOverrun : Bool) (s : State) : State :=
  if !(s.usel && s.rxe) then s.log (.rx c tpe tfe tbi .ignored)
  else if s.blk.rxq.length < s.cfg.rxDepth then
    (s.setBlk { Block.addTags s.blk tpe tfe tbi with rxq := s.blk.rxq ++ [c &&& wlmask s.wls] }).log
      (.rx (c &&& wlmask s.wls) tpe tfe tbi .stored)
  else if replaceOnOverrun then
    (s.setBlk { Block.addTags s.blk tpe tfe tbi with
        oe := true, rxq := s.blk.rxq.dropLast ++ [c &&& wlmask s.wls] }).log
      (.rx (c &&& wlmask s.wls) tpe tfe tbi .overrunReplace)
  else
    (s.setBlk { s.blk with oe := true }).log (.rx (c &&& wlmask s.wls) tpe tfe tbi .overrunDrop)

/-- `RESET`: every piece of block state takes its reset value; the bookkeeping and the host stay (R360, R362). -/
def resetBlock (s : State) : State := (s.setBlk s.cfg.rst).log .reset

end Sys2Proof.Machine
end

