-- ==== Sys2Proof/Machine/HostAgent.lean ====
section
/-! DEFINITION. The host agent: the transaction at the block's port, the access primitives (R70 to R73), the
operations of the host script (47_driver_protocol.md), and the turn of each agent. -/

namespace Sys2Proof.Machine

/-- The register a read-view name belongs to; `SELW` is `SEL<SEL_WORD>` (R131). -/
def RName.reg (c : Cfg) : RName → Reg
  | .sel0 => .sel0
  | .sel1 => .sel1
  | .selw => if c.selWord = 0 then .sel0 else .sel1
  | .rbr  => .data
  | .ier  => .ier
  | .iir  => .iirFcr
  | .lcr  => .lcr
  | .mcr  => .mcr
  | .lsr  => .lsr
  | .msr  => .msr
  | .scr  => .scr
  | .cntl => .cntl
  | .stat => .stat
  | .baud => .baud

/-- The register a write-view name belongs to; `SELW` is `SEL<SEL_WORD>` (R131). -/
def WName.reg (c : Cfg) : WName → Reg
  | .sel0 => .sel0
  | .sel1 => .sel1
  | .selw => if c.selWord = 0 then .sel0 else .sel1
  | .thr  => .data
  | .ier  => .ier
  | .fcr  => .iirFcr
  | .lcr  => .lcr
  | .mcr  => .mcr
  | .scr  => .scr
  | .cntl => .cntl
  | .baud => .baud

/-- The transaction word of `RD rname` (R282). -/
def readTxn (c : Cfg) (r : RName) : Txn := mkTxn false (c.map.off (r.reg c)) 0

/-- The transaction word of a write through `wname` (R283, R284). -/
def writeTxn (c : Cfg) (w : WName) (v : Word) : Txn := mkTxn true (c.map.off (w.reg c)) v

/-- The fault code of a word that names no operation (R133). -/
def errorCode : DecodeError → FaultCode
  | .badAccess => .f3
  | .unmapped  => .f2

/-- A transaction whose word names no operation: it records F3 or F2 and ends like every other (R140, R141). -/
def badTxn (e : DecodeError) (t : Txn) (s : State) : State :=
  if txnWe t then faultWrite (errorCode e) (txnOff t) (txnData t) s else faultRead (errorCode e) (txnOff t) s

/-- One transaction at the block's port: the word is decoded, and the operation it names is performed (R71, R101). -/
def busTxn (t : Txn) (s : State) : Result :=
  match decode s.cfg.map t with
  | .ok i    => exec i s
  | .error e => .next (badTxn e t s)

/-- Whether a byte address is the block's (R70). -/
def inWindow (c : Cfg) (addr : Nat) : Bool := decide (c.base ≤ addr) && decide (addr < c.base + 0x100)

/-- The offset the block sees (R70). -/
def offsetOf (c : Cfg) (addr : Nat) : Byte := BitVec.ofNat 8 (addr - c.base)

/-- A read of a width other than 4: F3 and a draw of the access width, which its `Bus` event and the host see as 32
bits (R72, R142; log entry 13). -/
def narrowRead (off : Byte) (n : Nat) (s : State) : State :=
  ((s.raise .f3).drew).endRead off (zext ((s.raise .f3).free (8 * n)))

/-- `MemRead(addr, n)` (R70 to R73, R142). -/
def memRead (addr n : Nat) (s : State) : Result :=
  if !inWindow s.cfg addr then .fault .outsideBlock
  else if n = 4 then busTxn (mkTxn false (offsetOf s.cfg addr) 0) s
  else .next (narrowRead (offsetOf s.cfg addr) n s)

/-- `MemWrite(addr, n, v)` (R70 to R73, R142). -/
def memWrite (addr n v : Nat) (s : State) : Result :=
  if !inWindow s.cfg addr then .fault .outsideBlock
  else if n = 4 then busTxn (mkTxn true (offsetOf s.cfg addr) (BitVec.ofNat 32 v)) s
  else .next (faultWrite .f3 (offsetOf s.cfg addr) (BitVec.ofNat 32 (v % 2 ^ (8 * n))) s)

/-- `CLAIM` (R281). -/
def hostClaim (s : State) : State :=
  if s.claimed then (s.raise .f7).advance else { s with claimed := true, acc := none }.advance

/-- `RD rname` (R282). -/
def hostRd (r : RName) (s : State) : Result := onNext State.advance (busTxn (readTxn s.cfg r) s.checkClaim)

/-- `WR wname, #imm` (R283). -/
def hostWr (w : WName) (imm : Word) (s : State) : Result :=
  onNext State.advance (busTxn (writeTxn s.cfg w imm) s.checkClaim)

/-- An operation that needs `acc` before any read: F9, and the host goes on (R328). -/
def accUnwritten (s : State) : State := (s.raise .f9).advance

/-- `WRM wname, #clr, #set` (R284). -/
def hostWrm (w : WName) (clr set : Word) (s : State) : Result :=
  match s.acc with
  | none   => .next (accUnwritten s.checkClaim)
  | some a => onNext State.advance (busTxn (writeTxn s.cfg w (mergeMasks a clr set)) s.checkClaim)

/-- `BRZ #mask, label` (R285). -/
def hostBrz (mask : Word) (target : Nat) (s : State) : State :=
  match s.acc with
  | none   => accUnwritten s
  | some a => if a &&& mask = 0 then { s with hpc := target } else s.advance

/-- `RET8` (R286). -/
def hostRet8 (s : State) : State :=
  match s.acc with
  | none   => accUnwritten s
  | some a => { s with out := s.out ++ [truncTo 8 a] }.advance

/-- One operation of the host script (R280). -/
def hostOp (op : HostOp) (s : State) : Result :=
  match op with
  | .claim          => .next (hostClaim s)
  | .rd r           => hostRd r s
  | .wr w imm       => hostWr w imm s
  | .wrm w clr set  => hostWrm w clr set s
  | .brz mask t     => .next (hostBrz mask t s)
  | .ret8           => .next (hostRet8 s)
  | .halt           => .next s
  | .refuseDivisor  => .next (s.refuse .x5).advance
  | .bus t          => onNext State.advance (busTxn t s)
  | .memRead a n    => onNext State.advance (memRead a n s)
  | .memWrite a n v => onNext State.advance (memWrite a n v s)

/-- The operation at the script counter; past the end of the script there is none (R23). -/
def State.fetch (s : State) : Option HostOp := s.script[s.hpc]?

/-- The host's turn: the operation at the script counter; at the end of the script, as at `HALT`, the host has no
step and the turn passes (R287; log entry 7). -/
def hostStep (s : State) : Result :=
  match s.fetch with
  | none    => .next s
  | some op => hostOp op s

/-- The step of the agent whose turn it is (R20). -/
def runTurn (t : Turn) (s : State) : Result :=
  match t with
  | .host                      => hostStep s
  | .txLoad                    => .next (txLoad s)
  | .txEmit                    => .next (txEmit s)
  | .rxArrive c tpe tfe tbi rp => .next (rxArrive c tpe tfe tbi rp s)
  | .reset                     => .next (resetBlock s)

/-- The script with an operation at index `n`; a shorter script is filled up with `HALT`. -/
def placeOp (op : HostOp) : Nat → List HostOp → List HostOp
  | 0, []          => [op]
  | 0, _ :: rest   => op :: rest
  | n + 1, []      => .halt :: placeOp op n []
  | n + 1, a :: rest => a :: placeOp op n rest

/-- The host operation that performs the transaction of a table word; a number that is no 41-bit word gives no
transaction (log entry 17). -/
def opOfTableWord (nbits w : Nat) : HostOp :=
  match tableTxn nbits w with
  | some t => .bus t
  | none   => .halt

end Sys2Proof.Machine
end

