-- ==== Sys2Proof/Machine/Protocol.lean ====
section
/-! DEFINITION. The two idioms and the five driver operations as expansions into host-script operations (R132, R290,
R291, R300 to R308). An expansion that holds a label takes the script index at which it stands. -/

namespace Sys2Proof.Machine

/-- The names that have both views, the only ones `RMW` admits (R290). -/
inductive RwName where
  | sel0 | sel1 | selw | ier | lcr | mcr | scr | cntl | baud
deriving DecidableEq, Repr

/-- The read-view name. -/
def RwName.toR : RwName → RName
  | .sel0 => .sel0
  | .sel1 => .sel1
  | .selw => .selw
  | .ier  => .ier
  | .lcr  => .lcr
  | .mcr  => .mcr
  | .scr  => .scr
  | .cntl => .cntl
  | .baud => .baud

/-- The write-view name. -/
def RwName.toW : RwName → WName
  | .sel0 => .sel0
  | .sel1 => .sel1
  | .selw => .selw
  | .ier  => .ier
  | .lcr  => .lcr
  | .mcr  => .mcr
  | .scr  => .scr
  | .cntl => .cntl
  | .baud => .baud

/-- `RMW r, #clr, #set` (R290). -/
def rmw (n : RwName) (clr set : Word) : List HostOp := [.rd n.toR, .wrm n.toW clr set]

/-- `POLL r, #mask`, standing at script index `at_` (R291). -/
def poll (at_ : Nat) (r : RName) (mask : Word) : List HostOp := [.rd r, .brz mask at_]

/-- `INIT #divisor`: 13 operations, or the refusal X5 and no transaction (R300, R129; log entry 15). -/
def initOps (c : Cfg) (d : Nat) : List HostOp :=
  if 1 ≤ d ∧ d ≤ 0xFFFF then
    rmw .selw 0x00000000 (1#32 <<< c.selBit.val)
      ++ rmw .cntl 0x00000000 0x00000001
      ++ rmw .lcr 0x00000003 0x00000003
      ++ rmw .mcr 0x00000002 0x00000000
      ++ [.wr .ier 0x00000000, .wr .fcr 0x00000006, .wr .baud (BitVec.ofNat 32 d)]
      ++ rmw .cntl 0x00000000 0x00000003
  else [.refuseDivisor]

/-- `INIT` with the divisor the host computes from its two parameters; a baud rate of 0 is refused (R128, R329). -/
def initFor (c : Cfg) : List HostOp :=
  match divisor c.clockHz c.targetBaud with
  | some d => initOps c d
  | none   => [.refuseDivisor]

/-- `WRITE_BYTE #b`, standing at script index `at_` (R305). -/
def writeByte (at_ : Nat) (b : Byte) : List HostOp := poll at_ .lsr 0x00000020 ++ [.wr .thr (zext b)]

/-- `WRITE_BYTES`, each byte in order (R306). -/
def writeBytes (at_ : Nat) : List Byte → List HostOp
  | []      => []
  | b :: bs => writeByte at_ b ++ writeBytes (at_ + 3) bs

/-- `WRITE_FMT`: at the block's boundary the bytes of the formatted text, whatever they are (R307). -/
def writeFmt (at_ : Nat) (formatted : List Byte) : List HostOp := writeBytes at_ formatted

/-- `READ_BYTE`, standing at script index `at_` (R308). -/
def readByte (at_ : Nat) : List HostOp := poll at_ .lsr 0x00000001 ++ [.rd .rbr, .ret8]

end Sys2Proof.Machine
end

