-- ==== Sys2Proof/Machine/Step.lean ====
section
/-! DEFINITION. One step of the machine, and placing an instruction where the next step fetches it. -/

namespace Sys2Proof.Machine

/-- One step: the agent whose turn it is takes its step (R20, R75). -/
def step (s : State) : Host.Outcome State Fault Refusal := runTurn s.nextTurn s.takeTurn

/-- The state whose next step is the host performing the transaction `w`: the operation stands at the script counter,
and the host has the next turn (log entry 5). -/
def State.withFetchWord (s : State) (nbits w : Nat) : State :=
  { s with script := placeOp (opOfTableWord nbits w) s.hpc s.script, turns := Turn.host :: s.turns }

end Sys2Proof.Machine
end

