-- ==== Sys2Proof/WellFormed.lean ====
section
/-! DEFINITION. The checks. Every term of `Instr` is well formed: the operand of a write is a 32-bit word, of which
every value is admitted (R100). What can be ill formed is the configuration and the host script, checked here. -/

namespace Sys2Proof

/-- R8: the offsets are strictly increasing in the order of the map, and multiples of 4. -/
def RegMap.wf (m : RegMap) : Bool :=
  let offs := [m.offSel0, m.offSel1, m.offData, m.offIer, m.offIirFcr, m.offLcr, m.offMcr, m.offLsr, m.offMsr,
    m.offScr, m.offCntl, m.offStat, m.offBaud].map BitVec.toNat
  (offs.zip offs.tail).all (fun p => decide (p.1 < p.2)) && offs.all (fun o => o % 4 == 0)

/-- The queues hold no more than their depths (R33, R35). -/
def Block.fits (c : Cfg) (b : Block) : Bool :=
  decide (b.txq.length ≤ c.txDepth) && decide (b.rxq.length ≤ c.rxDepth)

/-- The constraints on the parameters: R7, R8, R10, R11, R110 with R121 (`FIFOST` is never `0b01`), and reset values
that fit (R15, R45). -/
def Cfg.wf (c : Cfg) : Bool :=
  c.base % 4 == 0 && decide (c.base + 0x100 ≤ 2 ^ 32) && c.map.wf && decide (1 ≤ c.txDepth) &&
    decide (1 ≤ c.rxDepth) && decide (c.threLevel < c.txDepth) && c.fifoState != 0b01#2 && c.rst.fits c

namespace Machine

/-- A branch goes to an index of the script or to its end (R285); the value of a write access has its width (R71). -/
def HostOp.wf (len : Nat) : HostOp → Bool
  | .brz _ target   => decide (target ≤ len)
  | .memWrite _ n v => decide (v < 2 ^ (8 * n))
  | _ => true

/-- Every operation of the script is well formed. -/
def scriptWf (script : List HostOp) : Bool := script.all (HostOp.wf script.length)

end Machine
end Sys2Proof
end

