-- ==== Sys2Proof/Safety.lean ====
section
/-! DEFINITION. What counts as a safe run: the invariant of the state (R45), the record without a mark (R320), the
final states (R310), and the fairness premise (R263). -/

namespace Sys2Proof.Machine

/-- The state invariant of R45: the parameters meet their constraints and the queues fit. (Characters are 8 bits by
type; what only grows is said of a step, not of a state.) -/
def State.inv (s : State) : Bool := s.cfg.wf && s.blk.fits s.cfg

/-- No fault and no refusal recorded: the premise of every claim of the spec (R320). -/
def State.unmarked (s : State) : Bool := s.fault == FaultSet.empty && s.refused == RefuseSet.empty

/-- The host's part of the run is over: it stands at a `HALT` or past the script (R287, R310). -/
def State.hostDone (s : State) : Bool := s.fetch == none || s.fetch == some .halt

/-- *host-final* (R310). -/
def State.hostFinal (s : State) : Bool := s.hostDone && s.unmarked

/-- *drained* (R310). -/
def State.drained (s : State) : Bool := s.hostFinal && s.blk.txq.isEmpty && s.blk.tsr.isNone

/-- `TX_LOAD` is enabled (R261). -/
def State.canLoad (s : State) : Bool := s.usel && s.txe && s.blk.tsr.isNone && !s.blk.txq.isEmpty

/-- `TX_EMIT` is enabled (R262). -/
def State.canEmit (s : State) : Bool := s.usel && s.blk.tsr.isSome

/-- An endless run: each state steps to the next. -/
def IsRun (run : Nat → State) : Prop := ∀ k, step (run k) = .next (run (k + 1))

/-- The premise `FAIR_TX` (R263): a step of the transmit engine that stays enabled from some point on is taken. No
statement about a single step needs it. -/
def FairTx (run : Nat → State) : Prop :=
  (∀ n, (∀ k, n ≤ k → (run k).canLoad = true) → ∃ k, n ≤ k ∧ (run k).nextTurn = .txLoad) ∧
  (∀ n, (∀ k, n ≤ k → (run k).canEmit = true) → ∃ k, n ≤ k ∧ (run k).nextTurn = .txEmit)

end Sys2Proof.Machine
end

