-- ==== Sys2Proof/Certificates/Slice0/Obligations.lean ====
section
/-! DEFINITION. What is claimed of the machine, from the numbered rules of the spec. A result is stated as the whole
next state, so that everything the instruction leaves alone is stated with it. `0x14C#9 ++ v` is the transaction word
with selector `0x14C` and data `v` (R102). `Config.draw w k` is a free value: the statement holds for every value. -/

open Sys2Proof Sys2Proof.Machine

/-! ## Encoding -/

/-- R100, R102, R133 and the vectors EN1 to EN7: words written out bit by bit, with the default offsets. -/
def Obligations.WrittenOutWordsDecode : Prop :=
  decode RegMap.std 0b0_00000100_00000000000000000000000000000000#41 = .ok .rdSel1 ∧
  decode RegMap.std 0b1_00000100_00000000000000000000000000000111#41 = .ok (.wrSel1 0x7) ∧
  decode RegMap.std 0b1_01000000_00000000000000000000000001000001#41 = .ok (.wrThr 0x41) ∧
  decode RegMap.std 0b0_01001000_11111111111111111111111111111111#41 = .ok .rdIir ∧
  decode RegMap.std 0b1_01001000_00000000000000000000000000000110#41 = .ok (.wrFcr 0x6) ∧
  decode RegMap.std 0b0_01010100_00000000000000000000000000000000#41 = .ok .rdLsr ∧
  decode RegMap.std 0b1_01101000_00000000000000000000000000011011#41 = .ok (.wrBaud 0x1B) ∧
  decode RegMap.std 0b0_00001000_00000000000000000000000000000000#41 = .error .unmapped ∧
  decode RegMap.std 0b0_01000010_00000000000000000000000000000000#41 = .error .badAccess

/-- R133: the operation map in full. The 26 selectors name their operations, whatever the data of a read; every other
selector with `off mod 4 = 0` names none (F2), and every selector with `off mod 4 ≠ 0` names none (F3). -/
def Obligations.OperationMapInFull : Prop :=
  (∀ v : Word,
    decode RegMap.std (0x000#9 ++ v) = .ok .rdSel0 ∧ decode RegMap.std (0x100#9 ++ v) = .ok (.wrSel0 v) ∧
    decode RegMap.std (0x004#9 ++ v) = .ok .rdSel1 ∧ decode RegMap.std (0x104#9 ++ v) = .ok (.wrSel1 v) ∧
    decode RegMap.std (0x040#9 ++ v) = .ok .rdRbr ∧ decode RegMap.std (0x140#9 ++ v) = .ok (.wrThr v) ∧
    decode RegMap.std (0x044#9 ++ v) = .ok .rdIer ∧ decode RegMap.std (0x144#9 ++ v) = .ok (.wrIer v) ∧
    decode RegMap.std (0x048#9 ++ v) = .ok .rdIir ∧ decode RegMap.std (0x148#9 ++ v) = .ok (.wrFcr v) ∧
    decode RegMap.std (0x04C#9 ++ v) = .ok .rdLcr ∧ decode RegMap.std (0x14C#9 ++ v) = .ok (.wrLcr v) ∧
    decode RegMap.std (0x050#9 ++ v) = .ok .rdMcr ∧ decode RegMap.std (0x150#9 ++ v) = .ok (.wrMcr v) ∧
    decode RegMap.std (0x054#9 ++ v) = .ok .rdLsr ∧ decode RegMap.std (0x154#9 ++ v) = .ok (.wrLsr v) ∧
    decode RegMap.std (0x058#9 ++ v) = .ok .rdMsr ∧ decode RegMap.std (0x158#9 ++ v) = .ok (.wrMsr v) ∧
    decode RegMap.std (0x05C#9 ++ v) = .ok .rdScr ∧ decode RegMap.std (0x15C#9 ++ v) = .ok (.wrScr v) ∧
    decode RegMap.std (0x060#9 ++ v) = .ok .rdCntl ∧ decode RegMap.std (0x160#9 ++ v) = .ok (.wrCntl v) ∧
    decode RegMap.std (0x064#9 ++ v) = .ok .rdStat ∧ decode RegMap.std (0x164#9 ++ v) = .ok (.wrStat v) ∧
    decode RegMap.std (0x068#9 ++ v) = .ok .rdBaud ∧ decode RegMap.std (0x168#9 ++ v) = .ok (.wrBaud v)) ∧
  (∀ (we : Bool) (off : Byte) (v : Word),
    (off.toNat % 4 ≠ 0 → decode RegMap.std (BitVec.ofBool we ++ off ++ v) = .error .badAccess) ∧
    (off.toNat % 4 = 0 →
      off.toNat ∉ [0x00, 0x04, 0x40, 0x44, 0x48, 0x4C, 0x50, 0x54, 0x58, 0x5C, 0x60, 0x64, 0x68] →
      decode RegMap.std (BitVec.ofBool we ++ off ++ v) = .error .unmapped)) ∧
  errorCode .badAccess = .f3 ∧ errorCode .unmapped = .f2

/-- For every choice of offsets that R8 allows, decoding the word of an operation gives the operation back, with every
operand. -/
def Obligations.DecodeInvertsEncode : Prop :=
  ∀ m : RegMap, m.wf = true → ∀ i : Instr, decode m (encode m i) = .ok i

/-- A word that decodes is the word of its operation; a read's word is so up to its ignored data bits (R100). -/
def Obligations.EncodeRestoresDecodedWord : Prop :=
  ∀ (m : RegMap) (t : Txn) (i : Instr), decode m t = .ok i →
    (t.getLsbD 40 = true → encode m i = t) ∧
    (t.getLsbD 40 = false → encode m i = t &&& 0x1FF00000000#41)

/-- R102: `T[40:32]` alone determines the operation; `wdata` never changes which operation it is (a read is the same
operation, a write the same write with other data). The mask `0x1FF00000000` keeps exactly the selector. -/
def Obligations.SelectorAloneDeterminesOperation : Prop :=
  ∀ (m : RegMap) (sel : BitVec 9) (v w : Word),
    (sel ++ v) &&& 0x1FF00000000#41 = sel.setWidth 41 <<< 32 ∧
    (∀ e, decode m (sel ++ v) = .error e → decode m (sel ++ w) = .error e) ∧
    (∀ i, decode m (sel ++ v) = .ok i →
      ∃ j, decode m (sel ++ w) = .ok j ∧ j.reg = i.reg ∧ j.we = i.we ∧
        (i.we = false → j = i) ∧ (i.we = true → i.wdata = v ∧ j.wdata = w))

/-- R18: after a masked set the masked get of the field gives the value set and every other bit is as before; and a
`WRM` with `clr` the field mask and `set` the shifted value is that set (R284). -/
def Obligations.MaskedSetChangesTheFieldOnly : Prop :=
  ∀ (w f : Word) (hi lo : Nat), lo ≤ hi → hi < 32 → f.toNat < 2 ^ (hi - lo + 1) →
    getField (setField w hi lo f) hi lo = f ∧
    (∀ k, k < lo ∨ hi < k → (setField w hi lo f).getLsbD k = w.getLsbD k) ∧
    mergeMasks w (fieldMask hi lo) (f <<< lo) = setField w hi lo f

/-! ## The checks every transaction passes -/

/-- R321 (F1): every operation on a gated register while `USEL = 0`, read or write. -/
def Obligations.UnselectedAccessFaults : Prop :=
  ∀ (i : Instr) (s : State), i.reg ≠ .sel0 → i.reg ≠ .sel1 → s.usel = false →
    (i.we = false → exec i s = .next { s with
      fault := { s.fault with f1 := true },
      hist := s.hist ++ [.fault .f1, .bus false (s.cfg.map.off i.reg) (Config.draw 32 s.draws)],
      acc := some (Config.draw 32 s.draws), draws := s.draws + 1 }) ∧
    (i.we = true → exec i s = .next { s with
      fault := { s.fault with f1 := true },
      hist := s.hist ++ [.fault .f1, .bus true (s.cfg.map.off i.reg) i.wdata] })

/-- R326 (F6; the spec's decision D17): every operation on `DATA` or `IER` while `LCR[7] = 1`, once the F1 check has
passed. -/
def Obligations.ModeFlagAccessFaults : Prop :=
  ∀ (i : Instr) (s : State), (i.reg = .data ∨ i.reg = .ier) → s.usel = true → s.blk.lcr.getLsbD 7 = true →
    (i.we = false → exec i s = .next { s with
      fault := { s.fault with f6 := true },
      hist := s.hist ++ [.fault .f6, .bus false (s.cfg.map.off i.reg) (Config.draw 32 s.draws)],
      acc := some (Config.draw 32 s.draws), draws := s.draws + 1 }) ∧
    (i.we = true → exec i s = .next { s with
      fault := { s.fault with f6 := true },
      hist := s.hist ++ [.fault .f6, .bus true (s.cfg.map.off i.reg) i.wdata] })

/-- R322 (F2; the spec's decision D9) and the alignment half of R323 (F3): a transaction at an offset that is no
multiple of 4 is F3; else one at an offset where no register stands is F2; it changes nothing but the record (and, for
a read, returns a draw). -/
def Obligations.UnnamedOffsetFaults : Prop :=
  ∀ (off : Byte) (v : Word) (s : State) (c : FaultCode),
    ((off.toNat % 4 ≠ 0 ∧ c = .f3) ∨ (off.toNat % 4 = 0 ∧ (∀ r : Reg, s.cfg.map.off r ≠ off) ∧ c = .f2)) →
    busTxn (0#1 ++ off ++ v) s = .next { s with
      fault := s.fault.add c,
      hist := s.hist ++ [.fault c, .bus false off (Config.draw 32 s.draws)],
      acc := some (Config.draw 32 s.draws), draws := s.draws + 1 } ∧
    busTxn (1#1 ++ off ++ v) s = .next { s with
      fault := s.fault.add c, hist := s.hist ++ [.fault c, .bus true off v] }

/-- R72, R142: an access primitive of another width than 4 at the block is F3 and changes nothing but the record; a
read returns a draw of the access width (kept mod 2^32 in the record: log entry 13; put in `acc`: log entry 11). -/
def Obligations.WrongWidthFaults : Prop :=
  ∀ (addr n v : Nat) (s : State), s.cfg.base ≤ addr → addr < s.cfg.base + 0x100 → n ≠ 4 →
    memRead addr n s = .next { s with
      fault := { s.fault with f3 := true },
      hist := s.hist ++ [.fault .f3,
        .bus false (BitVec.ofNat 8 (addr - s.cfg.base)) ((Config.draw (8 * n) s.draws).setWidth 32)],
      acc := some ((Config.draw (8 * n) s.draws).setWidth 32), draws := s.draws + 1 } ∧
    memWrite addr n v s = .next { s with
      fault := { s.fault with f3 := true },
      hist := s.hist ++ [.fault .f3,
        .bus true (BitVec.ofNat 8 (addr - s.cfg.base)) (BitVec.ofNat 32 (v % 2 ^ (8 * n)))] }

/-- R101, R140, R141: the checks are made in the order F3, F2, F1, F6 and the first that fires decides: it is the one
code recorded, and nothing of the block changes; if none fires, the operation the selector names is performed, and of
the fault codes only F4 and F5 can be its own. -/
def Obligations.FirstFailingCheckDecides : Prop :=
  ∀ (we : Bool) (off : Byte) (v : Word) (s : State), s.cfg.wf = true →
    let fired : Option FaultCode :=
      if off.toNat % 4 ≠ 0 then some .f3
      else if off ∉ Reg.all.map s.cfg.map.off then some .f2
      else if off ≠ s.cfg.map.offSel0 ∧ off ≠ s.cfg.map.offSel1 ∧ s.usel = false then some .f1
      else if (off = s.cfg.map.offData ∨ off = s.cfg.map.offIer) ∧ s.blk.lcr.getLsbD 7 = true then some .f6
      else none
    ∃ s', busTxn (BitVec.ofBool we ++ off ++ v) s = .next s' ∧
      (∀ c, fired = some c → s'.blk = s.blk ∧ s'.fault = s.fault.add c ∧ s'.refused = s.refused ∧
        ∃ d, s'.hist = s.hist ++ [.fault c, .bus we off d] ∧ (we = true → d = v)) ∧
      (fired = none → (∃ i, decode s.cfg.map (BitVec.ofBool we ++ off ++ v) = .ok i ∧ exec i s = .next s') ∧
        s'.fault = { s.fault with f4 := s'.fault.f4, f5 := s'.fault.f5 })

/-- R145: every transaction, faulting or not, completes and appends exactly one `Bus` event, at its end; its data is
the word written, or the word returned; a fault's event stands just before it. -/
def Obligations.OneBusEventEndsEveryTransaction : Prop :=
  ∀ (t : Txn) (s : State), ∃ (s' : State) (new : List Event) (v : Word),
    busTxn t s = .next s' ∧
    s'.hist = s.hist ++ new ++ [.bus (t.getLsbD 40) (t.extractLsb' 32 8) v] ∧
    (∀ we off d, Event.bus we off d ∉ new) ∧
    (t.getLsbD 40 = true → v = t.extractLsb' 0 32) ∧
    (t.getLsbD 40 = false → s'.acc = some v) ∧
    (∀ c, Event.fault c ∈ new → new = [.fault c]) ∧
    (s'.fault ≠ s.fault → ∃ c, new = [.fault c])

/-! ## The mux/enable pair -/

/-- R161: a read of the select word returns all 32 bits as stored and changes nothing else; which word of the pair it
is follows `SEL_WORD` (R160). Neither `USEL` nor `DLAB` gates it. -/
def Obligations.SelectWordReads : Prop :=
  decode RegMap.std (0x004#9 ++ 0#32) = .ok .rdSel1 ∧
  ∀ s : State,
    (s.cfg.selWord = 1 → exec .rdSel1 s = .next { s with
      acc := some s.blk.selw, hist := s.hist ++ [.bus false s.cfg.map.offSel1 s.blk.selw] }) ∧
    (s.cfg.selWord = 0 → exec .rdSel0 s = .next { s with
      acc := some s.blk.selw, hist := s.hist ++ [.bus false s.cfg.map.offSel0 s.blk.selw] })

/-- R162: a write of the select word stores all 32 bits, which sets `USEL` to `v[SEL_BIT]`, and changes no other state
of the UART. -/
def Obligations.SelectWordWrites : Prop :=
  (∀ v : Word, decode RegMap.std (0x104#9 ++ v) = .ok (.wrSel1 v)) ∧
  ∀ (v : Word) (s : State),
    (s.cfg.selWord = 1 → ∃ s', exec (.wrSel1 v) s = .next s' ∧
      s' = { s with blk := { s.blk with selw := v }, hist := s.hist ++ [.bus true s.cfg.map.offSel1 v] } ∧
      s'.usel = v.getLsbD s.cfg.selBit.val) ∧
    (s.cfg.selWord = 0 → ∃ s', exec (.wrSel0 v) s = .next s' ∧
      s' = { s with blk := { s.blk with selw := v }, hist := s.hist ++ [.bus true s.cfg.map.offSel0 v] } ∧
      s'.usel = v.getLsbD s.cfg.selBit.val)

/-- R163, R164 (the spec's decision D5): the companion word reads as a 32-bit draw and ignores writes. -/
def Obligations.CompanionWordDrawsAndIgnores : Prop :=
  decode RegMap.std (0x000#9 ++ 0#32) = .ok .rdSel0 ∧
  (∀ v : Word, decode RegMap.std (0x100#9 ++ v) = .ok (.wrSel0 v)) ∧
  ∀ (v : Word) (s : State),
    (s.cfg.selWord = 1 →
      exec .rdSel0 s = .next { s with
        acc := some (Config.draw 32 s.draws), draws := s.draws + 1,
        hist := s.hist ++ [.bus false s.cfg.map.offSel0 (Config.draw 32 s.draws)] } ∧
      exec (.wrSel0 v) s = .next { s with hist := s.hist ++ [.bus true s.cfg.map.offSel0 v] }) ∧
    (s.cfg.selWord = 0 →
      exec .rdSel1 s = .next { s with
        acc := some (Config.draw 32 s.draws), draws := s.draws + 1,
        hist := s.hist ++ [.bus false s.cfg.map.offSel1 (Config.draw 32 s.draws)] } ∧
      exec (.wrSel1 v) s = .next { s with hist := s.hist ++ [.bus true s.cfg.map.offSel1 v] })

/-! ## The data register -/

/-- R170, R172, R325 (F5; the spec's decision D14): the head of the receive queue is removed and returned
zero-extended, and nothing else of the block changes; with no character the read records F5, leaves the block alone
and returns an 8-bit draw, zero-extended. -/
def Obligations.ReceiveBufferReads : Prop :=
  decode RegMap.std (0x040#9 ++ 0#32) = .ok .rdRbr ∧
  ∀ s : State, s.usel = true → s.blk.lcr.getLsbD 7 = false →
    (∀ (c : Byte) (rest : List Byte), s.blk.rxq = c :: rest → exec .rdRbr s = .next { s with
      blk := { s.blk with rxq := rest },
      acc := some (c.setWidth 32), hist := s.hist ++ [.bus false s.cfg.map.offData (c.setWidth 32)] }) ∧
    (s.blk.rxq = [] → exec .rdRbr s = .next { s with
      fault := { s.fault with f5 := true },
      acc := some ((Config.draw 8 s.draws).setWidth 32), draws := s.draws + 1,
      hist := s.hist ++ [.fault .f5, .bus false s.cfg.map.offData ((Config.draw 8 s.draws).setWidth 32)] })

/-- R173, R174, R324 (F4; the spec's decision D13): with room (whether or not `THRE` is set) `v[7:0]` joins the tail
of the transmit queue and `v[31:8]` is ignored; `THRE` then says whether the queue is above `THRE_LEVEL`, and `TEMT`
is 0. With `|txq| = TX_DEPTH` the write records F4 and the character is discarded. -/
def Obligations.TransmitHoldingWrites : Prop :=
  (∀ v : Word, decode RegMap.std (0x140#9 ++ v) = .ok (.wrThr v)) ∧
  ∀ (v : Word) (s : State), s.usel = true → s.blk.lcr.getLsbD 7 = false →
    (s.blk.txq.length ≠ s.cfg.txDepth → ∃ s', exec (.wrThr v) s = .next s' ∧
      s' = { s with
        blk := { s.blk with txq := s.blk.txq ++ [v.extractLsb' 0 8] },
        hist := s.hist ++ [.bus true s.cfg.map.offData v] } ∧
      s'.thre = decide (s.blk.txq.length + 1 ≤ s.cfg.threLevel) ∧ s'.temt = false) ∧
    (s.blk.txq.length = s.cfg.txDepth → exec (.wrThr v) s = .next { s with
      fault := { s.fault with f4 := true },
      hist := s.hist ++ [.fault .f4, .bus true s.cfg.map.offData v] })

/-! ## Interrupt enable, interrupt identification, FIFO control -/

/-- R190, R191: `IER` keeps `v[3:0]` and reads back zero-extended; writing `EDSSI` is stored and refused (X1). -/
def Obligations.InterruptEnableReadsAndWrites : Prop :=
  decode RegMap.std (0x044#9 ++ 0#32) = .ok .rdIer ∧
  (∀ v : Word, decode RegMap.std (0x144#9 ++ v) = .ok (.wrIer v)) ∧
  ∀ (v : Word) (s : State), s.usel = true → s.blk.lcr.getLsbD 7 = false →
    exec .rdIer s = .next { s with
      acc := some (s.blk.ier.setWidth 32), hist := s.hist ++ [.bus false s.cfg.map.offIer (s.blk.ier.setWidth 32)] } ∧
    (v.getLsbD 3 = false → exec (.wrIer v) s = .next { s with
      blk := { s.blk with ier := v.extractLsb' 0 4 }, hist := s.hist ++ [.bus true s.cfg.map.offIer v] }) ∧
    (v.getLsbD 3 = true → exec (.wrIer v) s = .next { s with
      blk := { s.blk with ier := v.extractLsb' 0 4 }, refused := { s.refused with x1 := true },
      hist := s.hist ++ [.refuse .x1, .bus true s.cfg.map.offIer v] })

/-- R194 with the pending conditions of R330: the identification of the highest-priority pending source, the
FIFO-state field in bits 7:6; the read changes nothing of the block. -/
def Obligations.InterruptIdentificationByPriority : Prop :=
  decode RegMap.std (0x048#9 ++ 0#32) = .ok .rdIir ∧
  ∀ (s : State) (p1 p2 p3 : Prop), s.usel = true →
    (p1 ↔ s.blk.ier.getLsbD 2 = true ∧
      (s.blk.oe = true ∨ s.blk.pe = true ∨ s.blk.fe = true ∨ s.blk.bi = true)) →
    (p2 ↔ s.blk.ier.getLsbD 0 = true ∧ s.blk.rxq ≠ []) →
    (p3 ↔ s.blk.ier.getLsbD 1 = true ∧ s.blk.txq.length ≤ s.cfg.threLevel) →
    ∃ low : BitVec 6,
      (p1 → low = 0b000110#6) ∧ (¬p1 → p2 → low = 0b000100#6) ∧ (¬p1 → ¬p2 → p3 → low = 0b000010#6) ∧
      (¬p1 → ¬p2 → ¬p3 → low = 0b000001#6) ∧
      exec .rdIir s = .next { s with
        acc := some ((s.cfg.fifoState ++ low).setWidth 32),
        hist := s.hist ++ [.bus false s.cfg.map.offIirFcr ((s.cfg.fifoState ++ low).setWidth 32)] }

/-- R197: `RXCLR` and `TXCLR` act once when written 1; every other bit is ignored and nothing is stored; `tsr`, the
error flags and every stored register stay. -/
def Obligations.FifoControlPulses : Prop :=
  (∀ v : Word, decode RegMap.std (0x148#9 ++ v) = .ok (.wrFcr v)) ∧
  ∀ (v : Word) (s : State), s.usel = true →
    exec (.wrFcr v) s = .next { s with
      blk := { s.blk with
        rxq := if v.getLsbD 1 = true then [] else s.blk.rxq,
        txq := if v.getLsbD 2 = true then [] else s.blk.txq },
      hist := s.hist ++
        (if v.getLsbD 1 = true ∨ v.getLsbD 2 = true then [.fifoClr (v.getLsbD 1) (v.getLsbD 2)] else []) ++
        [.bus true s.cfg.map.offIirFcr v] }

/-- R330, R331 (the spec's decisions D18, D29, from general knowledge): the interrupt output; R192: with `IER = 0` it
is 0 and `RD_IIR` reports nothing pending, whatever the flags are. -/
def Obligations.InterruptOutputFollowsEnables : Prop :=
  ∀ s : State,
    (s.irq = true ↔ s.usel = true ∧
      ((s.blk.ier.getLsbD 2 = true ∧ (s.blk.oe = true ∨ s.blk.pe = true ∨ s.blk.fe = true ∨ s.blk.bi = true)) ∨
       (s.blk.ier.getLsbD 0 = true ∧ s.blk.rxq ≠ []) ∨
       (s.blk.ier.getLsbD 1 = true ∧ s.blk.txq.length ≤ s.cfg.threLevel))) ∧
    (s.blk.ier = 0 → s.irq = false ∧
      (s.usel = true → s.cfg.fifoState = 0b11 →
        ∃ s', exec .rdIir s = .next s' ∧ s'.acc = some 0x000000C1))

/-! ## Line control, modem control, line status, modem status, scratch -/

/-- R210, R211: `LCR` keeps `v[7:0]` and reads back zero-extended; `BRK` is stored and refused (X4). The mode flag
does not gate it. -/
def Obligations.LineControlReadsAndWrites : Prop :=
  decode RegMap.std (0x04C#9 ++ 0#32) = .ok .rdLcr ∧
  (∀ v : Word, decode RegMap.std (0x14C#9 ++ v) = .ok (.wrLcr v)) ∧
  ∀ (v : Word) (s : State), s.usel = true →
    exec .rdLcr s = .next { s with
      acc := some (s.blk.lcr.setWidth 32), hist := s.hist ++ [.bus false s.cfg.map.offLcr (s.blk.lcr.setWidth 32)] } ∧
    (v.getLsbD 6 = false → exec (.wrLcr v) s = .next { s with
      blk := { s.blk with lcr := v.extractLsb' 0 8 }, hist := s.hist ++ [.bus true s.cfg.map.offLcr v] }) ∧
    (v.getLsbD 6 = true → exec (.wrLcr v) s = .next { s with
      blk := { s.blk with lcr := v.extractLsb' 0 8 }, refused := { s.refused with x4 := true },
      hist := s.hist ++ [.refuse .x4, .bus true s.cfg.map.offLcr v] })

/-- R216, R217 (with the pin requests of R40): `MCR` keeps `v[4:0]` and reads back zero-extended; `LOOP` is stored and
refused (X2); the two pin requests follow the low bits. -/
def Obligations.ModemControlReadsAndWrites : Prop :=
  decode RegMap.std (0x050#9 ++ 0#32) = .ok .rdMcr ∧
  (∀ v : Word, decode RegMap.std (0x150#9 ++ v) = .ok (.wrMcr v)) ∧
  ∀ (v : Word) (s : State), s.usel = true →
    exec .rdMcr s = .next { s with
      acc := some (s.blk.mcr.setWidth 32), hist := s.hist ++ [.bus false s.cfg.map.offMcr (s.blk.mcr.setWidth 32)] } ∧
    (v.getLsbD 4 = false → exec (.wrMcr v) s = .next { s with
      blk := { s.blk with mcr := v.extractLsb' 0 5 }, hist := s.hist ++ [.bus true s.cfg.map.offMcr v] }) ∧
    (v.getLsbD 4 = true → exec (.wrMcr v) s = .next { s with
      blk := { s.blk with mcr := v.extractLsb' 0 5 }, refused := { s.refused with x2 := true },
      hist := s.hist ++ [.refuse .x2, .bus true s.cfg.map.offMcr v] }) ∧
    (∀ s', exec (.wrMcr v) s = .next s' → s'.rtsReq = v.getLsbD 1 ∧ s'.dtrReq = v.getLsbD 0)

/-- R222: the line-status word, bit by bit (R37, R114); the read then clears the four error flags exactly when
`LSR_COR` holds, and changes nothing else of the block. -/
def Obligations.LineStatusReportsAndClears : Prop :=
  decode RegMap.std (0x054#9 ++ 0#32) = .ok .rdLsr ∧
  ∀ s : State, s.usel = true → ∃ v : Word,
    (v.getLsbD 0 = true ↔ s.blk.rxq.length > 0) ∧ v.getLsbD 1 = s.blk.oe ∧ v.getLsbD 2 = s.blk.pe ∧
    v.getLsbD 3 = s.blk.fe ∧ v.getLsbD 4 = s.blk.bi ∧
    (v.getLsbD 5 = true ↔ s.blk.txq.length ≤ s.cfg.threLevel) ∧
    (v.getLsbD 6 = true ↔ s.blk.txq.length = 0 ∧ s.blk.tsr = none) ∧
    v >>> 7 = 0#32 ∧
    (s.cfg.lsrCor = true → exec .rdLsr s = .next { s with
      blk := { s.blk with oe := false, pe := false, fe := false, bi := false },
      acc := some v, hist := s.hist ++ [.bus false s.cfg.map.offLsr v] }) ∧
    (s.cfg.lsrCor = false → exec .rdLsr s = .next { s with
      acc := some v, hist := s.hist ++ [.bus false s.cfg.map.offLsr v] })

/-- R223, R227, R246 (the spec's decision D38): writes of line status, modem status and auxiliary status complete and
change nothing but the history. -/
def Obligations.StatusWritesAreIgnored : Prop :=
  (∀ v : Word, decode RegMap.std (0x154#9 ++ v) = .ok (.wrLsr v) ∧ decode RegMap.std (0x158#9 ++ v) = .ok (.wrMsr v) ∧
    decode RegMap.std (0x164#9 ++ v) = .ok (.wrStat v)) ∧
  ∀ (v : Word) (s : State), s.usel = true →
    exec (.wrLsr v) s = .next { s with hist := s.hist ++ [.bus true s.cfg.map.offLsr v] } ∧
    exec (.wrMsr v) s = .next { s with hist := s.hist ++ [.bus true s.cfg.map.offMsr v] } ∧
    exec (.wrStat v) s = .next { s with hist := s.hist ++ [.bus true s.cfg.map.offStat v] }

/-- R226 (the spec's decision D22): modem status reads as an 8-bit draw, zero-extended; the block does not change. -/
def Obligations.ModemStatusIsADraw : Prop :=
  decode RegMap.std (0x058#9 ++ 0#32) = .ok .rdMsr ∧
  ∀ s : State, s.usel = true →
    exec .rdMsr s = .next { s with
      acc := some ((Config.draw 8 s.draws).setWidth 32), draws := s.draws + 1,
      hist := s.hist ++ [.bus false s.cfg.map.offMsr ((Config.draw 8 s.draws).setWidth 32)] }

/-- R230, R231: scratch keeps `v[7:0]` and reads back zero-extended; no effect on anything else. -/
def Obligations.ScratchReadsAndWrites : Prop :=
  decode RegMap.std (0x05C#9 ++ 0#32) = .ok .rdScr ∧
  (∀ v : Word, decode RegMap.std (0x15C#9 ++ v) = .ok (.wrScr v)) ∧
  ∀ (v : Word) (s : State), s.usel = true →
    exec .rdScr s = .next { s with
      acc := some (s.blk.scr.setWidth 32), hist := s.hist ++ [.bus false s.cfg.map.offScr (s.blk.scr.setWidth 32)] } ∧
    exec (.wrScr v) s = .next { s with
      blk := { s.blk with scr := v.extractLsb' 0 8 }, hist := s.hist ++ [.bus true s.cfg.map.offScr v] }

/-! ## Auxiliary control, auxiliary status, divisor -/

/-- R240, R241: `CNTL` keeps `v[7:0]` and reads back zero-extended; the two auto-flow bits are stored and refused
(X3); the enables follow bits 0 and 1. -/
def Obligations.AuxControlReadsAndWrites : Prop :=
  decode RegMap.std (0x060#9 ++ 0#32) = .ok .rdCntl ∧
  (∀ v : Word, decode RegMap.std (0x160#9 ++ v) = .ok (.wrCntl v)) ∧
  ∀ (v : Word) (s : State), s.usel = true →
    exec .rdCntl s = .next { s with
      acc := some (s.blk.cntl.setWidth 32),
      hist := s.hist ++ [.bus false s.cfg.map.offCntl (s.blk.cntl.setWidth 32)] } ∧
    (v.getLsbD 2 = false ∧ v.getLsbD 3 = false → exec (.wrCntl v) s = .next { s with
      blk := { s.blk with cntl := v.extractLsb' 0 8 }, hist := s.hist ++ [.bus true s.cfg.map.offCntl v] }) ∧
    (v.getLsbD 2 = true ∨ v.getLsbD 3 = true → exec (.wrCntl v) s = .next { s with
      blk := { s.blk with cntl := v.extractLsb' 0 8 }, refused := { s.refused with x3 := true },
      hist := s.hist ++ [.refuse .x3, .bus true s.cfg.map.offCntl v] }) ∧
    (∀ s', exec (.wrCntl v) s = .next s' → s'.rxe = v.getLsbD 0 ∧ s'.txe = v.getLsbD 1)

/-- R245 (the spec's decision D25): the auxiliary-status word, field by field; three bits are draws; the block does
not change (the overrun flag is not cleared). -/
def Obligations.AuxStatusReports : Prop :=
  decode RegMap.std (0x064#9 ++ 0#32) = .ok .rdStat ∧
  ∀ s : State, s.usel = true → ∃ v : Word,
    (v.getLsbD 0 = true ↔ s.blk.rxq.length > 0) ∧
    (v.getLsbD 1 = true ↔ s.blk.txq.length < s.cfg.txDepth) ∧
    v.extractLsb' 2 1 = Config.draw 1 s.draws ∧
    (v.getLsbD 3 = true ↔ s.blk.tsr = none) ∧
    v.getLsbD 4 = s.blk.oe ∧
    (v.getLsbD 5 = true ↔ s.blk.txq.length = s.cfg.txDepth) ∧
    v.extractLsb' 6 1 = Config.draw 1 (s.draws + 1) ∧
    v.extractLsb' 7 1 = Config.draw 1 (s.draws + 2) ∧
    (v.getLsbD 8 = true ↔ s.blk.txq.length = 0) ∧
    (v.getLsbD 9 = true ↔ s.blk.txq.length = 0 ∧ s.blk.tsr = none) ∧
    v.extractLsb' 10 6 = 0#6 ∧
    (v.extractLsb' 16 4).toNat = min s.blk.rxq.length 15 ∧
    v.extractLsb' 20 4 = 0#4 ∧
    (v.extractLsb' 24 4).toNat = min s.blk.txq.length 15 ∧
    v.extractLsb' 28 4 = 0#4 ∧
    exec .rdStat s = .next { s with
      acc := some v, draws := s.draws + 3, hist := s.hist ++ [.bus false s.cfg.map.offStat v] }

/-- R247, R248: the divisor register keeps `v[15:0]` and reads back zero-extended. The mode flag does not gate it. -/
def Obligations.BaudReadsAndWrites : Prop :=
  decode RegMap.std (0x068#9 ++ 0#32) = .ok .rdBaud ∧
  (∀ v : Word, decode RegMap.std (0x168#9 ++ v) = .ok (.wrBaud v)) ∧
  ∀ (v : Word) (s : State), s.usel = true →
    exec .rdBaud s = .next { s with
      acc := some (s.blk.baud.setWidth 32),
      hist := s.hist ++ [.bus false s.cfg.map.offBaud (s.blk.baud.setWidth 32)] } ∧
    exec (.wrBaud v) s = .next { s with
      blk := { s.blk with baud := v.extractLsb' 0 16 }, hist := s.hist ++ [.bus true s.cfg.map.offBaud v] }

/-! ## The engines and the environment -/

/-- R261: `TX_LOAD`, enabled iff selected, `CNTL[1] = 1`, the shifter free and a character queued: the head of the
queue enters the shifter; where it is not enabled nothing is loaded. -/
def Obligations.TransmitEngineLoads : Prop :=
  ∀ (s : State) (rest : List Turn), s.turns = .txLoad :: rest →
    (∀ c q, s.usel = true → s.blk.cntl.getLsbD 1 = true → s.blk.tsr = none → s.blk.txq = c :: q →
      step s = .next { s with
        turns := rest, blk := { s.blk with txq := q, tsr := some c }, hist := s.hist ++ [.txLoad c] }) ∧
    (s.usel = false ∨ s.blk.cntl.getLsbD 1 = false ∨ s.blk.tsr ≠ none ∨ s.blk.txq = [] →
      ∀ s', step s = .next s' → s'.blk = s.blk ∧ s'.lineOut = s.lineOut ∧ s'.hist = s.hist)

/-- R262 with the mask of R130: `TX_EMIT`, enabled iff selected and the shifter occupied (`CNTL[1]` is not asked for);
the frame holds the character masked by the word length and the configuration in force; where it is not enabled
nothing is sent. -/
def Obligations.TransmitEngineEmits : Prop :=
  ∀ (s : State) (rest : List Turn), s.turns = .txEmit :: rest →
    (∀ c, s.usel = true → s.blk.tsr = some c → ∃ f : Frame,
      f.char = c &&& BitVec.ofNat 8 (2 ^ (5 + (s.blk.lcr.extractLsb' 0 2).toNat) - 1) ∧
      f.wls = s.blk.lcr.extractLsb' 0 2 ∧ f.stb = s.blk.lcr.getLsbD 2 ∧ f.par = s.blk.lcr.extractLsb' 3 3 ∧
      f.div = s.blk.baud ∧
      step s = .next { s with
        turns := rest, blk := { s.blk with tsr := none }, lineOut := s.lineOut ++ [f],
        hist := s.hist ++ [.txEmit f] }) ∧
    (s.usel = false ∨ s.blk.tsr = none →
      ∀ s', step s = .next s' → s'.blk = s.blk ∧ s'.lineOut = s.lineOut ∧ s'.hist = s.hist)

/-- R264: a character that finds room is stored, masked by the word length, in spite of its tags, which are or-ed into
the sticky flags. -/
def Obligations.ReceiveEngineStores : Prop :=
  ∀ (s : State) (rest : List Turn) (c m : Byte) (tpe tfe tbi rp : Bool),
    s.turns = .rxArrive c tpe tfe tbi rp :: rest →
    s.usel = true → s.blk.cntl.getLsbD 0 = true → s.blk.rxq.length < s.cfg.rxDepth →
    m = c &&& BitVec.ofNat 8 (2 ^ (5 + (s.blk.lcr.extractLsb' 0 2).toNat) - 1) →
    step s = .next { s with
      turns := rest,
      blk := { s.blk with
        rxq := s.blk.rxq ++ [m], pe := s.blk.pe || tpe, fe := s.blk.fe || tfe, bi := s.blk.bi || tbi },
      hist := s.hist ++ [.rx m tpe tfe tbi .stored] }

/-- R265 (the spec's decision D15): with the queue full the overrun flag is set, and the new character is lost, or
replaces the newest unread one and leaves its tags. Both outcomes are runs. -/
def Obligations.ReceiveOverrunDropsOrReplaces : Prop :=
  ∀ (s : State) (rest : List Turn) (c m : Byte) (tpe tfe tbi : Bool),
    s.usel = true → s.blk.cntl.getLsbD 0 = true → s.blk.rxq.length = s.cfg.rxDepth →
    m = c &&& BitVec.ofNat 8 (2 ^ (5 + (s.blk.lcr.extractLsb' 0 2).toNat) - 1) →
    (s.turns = .rxArrive c tpe tfe tbi false :: rest → step s = .next { s with
      turns := rest, blk := { s.blk with oe := true }, hist := s.hist ++ [.rx m tpe tfe tbi .overrunDrop] }) ∧
    (s.turns = .rxArrive c tpe tfe tbi true :: rest → step s = .next { s with
      turns := rest,
      blk := { s.blk with
        oe := true, rxq := s.blk.rxq.dropLast ++ [m],
        pe := s.blk.pe || tpe, fe := s.blk.fe || tfe, bi := s.blk.bi || tbi },
      hist := s.hist ++ [.rx m tpe tfe tbi .overrunReplace] })

/-- R266 (the spec's decision D24): while unselected or with the receiver disabled an offered character changes
nothing but the history; one of the three branches applies to every offered character. -/
def Obligations.UnwantedCharacterIsIgnored : Prop :=
  ∀ (s : State) (rest : List Turn) (c : Byte) (tpe tfe tbi rp : Bool),
    s.turns = .rxArrive c tpe tfe tbi rp :: rest →
    ((s.usel = false ∨ s.blk.cntl.getLsbD 0 = false) →
      step s = .next { s with turns := rest, hist := s.hist ++ [.rx c tpe tfe tbi .ignored] }) ∧
    (s.inv = true → s.usel = false ∨ s.blk.cntl.getLsbD 0 = false ∨ s.blk.rxq.length < s.cfg.rxDepth ∨
      s.blk.rxq.length = s.cfg.rxDepth)

/-- R260 (the spec's decision D10): while `USEL = 0` no turn of an engine or of an arriving character changes the
block, the line or a mark: nothing is sent, nothing is received, all engine state is frozen. -/
def Obligations.EnginesFrozenWhileUnselected : Prop :=
  ∀ (s s' : State) (t : Turn), s.usel = false → t ≠ .host → t ≠ .reset → runTurn t s = .next s' →
    s'.blk = s.blk ∧ s'.lineOut = s.lineOut ∧ s'.fault = s.fault ∧ s'.refused = s.refused ∧
    (∀ c, Event.txLoad c ∉ s'.hist.drop s.hist.length) ∧ (∀ f, Event.txEmit f ∉ s'.hist.drop s.hist.length)

/-- R360, R362 (the spec's decisions D27, D37): `RESET` sets every piece of block state to its reset value in one
step; the bookkeeping (but for its own event), the line record and the host state stay. At the start of a run the
bookkeeping is empty. -/
def Obligations.ResetStepSetsTheBlockOnly : Prop :=
  (State.reset.hist = [] ∧ State.reset.lineOut = [] ∧ (∀ c, State.reset.fault.has c = false) ∧
    (∀ c, State.reset.refused.has c = false)) ∧
  ∀ (s : State) (rest : List Turn), s.turns = .reset :: rest →
    step s = .next { s with turns := rest, blk := s.cfg.rst, hist := s.hist ++ [.reset] }

/-- R361 (the spec's decision D27, from general knowledge; log entry 4): the state after reset, stored rows and
derived rows; the derived read values are those the first reads return once the UART has been selected. -/
def Obligations.ResetValuesAreTheTable : Prop :=
  State.reset.cfg.rst = State.reset.blk ∧
  State.reset.blk.selw = 0x00000000#32 ∧ State.reset.blk.ier = 0x0#4 ∧ State.reset.blk.lcr = 0x00#8 ∧
  State.reset.blk.mcr = 0x00#5 ∧ State.reset.blk.scr = 0x00#8 ∧ State.reset.blk.cntl = 0x03#8 ∧
  State.reset.blk.baud = 0x0000#16 ∧ State.reset.blk.txq = [] ∧ State.reset.blk.tsr = none ∧
  State.reset.blk.rxq = [] ∧ State.reset.blk.oe = false ∧ State.reset.blk.pe = false ∧
  State.reset.blk.fe = false ∧ State.reset.blk.bi = false ∧
  State.reset.usel = false ∧ State.reset.dr = false ∧ State.reset.thre = true ∧ State.reset.temt = true ∧
  State.reset.irq = false ∧ State.reset.rtsReq = false ∧ State.reset.dtrReq = false ∧
  (∃ t, exec .rdSel0 State.reset = .next t ∧ t.acc = some (Config.draw 32 0)) ∧
  ∃ s, exec (.wrSel1 0x00000001) State.reset = .next s ∧
    (∃ t, exec .rdLsr s = .next t ∧ t.acc = some 0x00000060) ∧
    (∃ t, exec .rdIir s = .next t ∧ t.acc = some 0x000000C1) ∧
    (∃ t v, exec .rdStat s = .next t ∧ t.acc = some v ∧ v &&& ~~~0x000000C4#32 = 0x0000030A#32)

/-! ## The step and the host -/

/-- A step of the host at its operation `bus t`, whose word decodes, is exactly the operation the word names; around
it the step only takes the turn and moves the script counter on. `bus t` is no operation of the host script of R131
but the model's own, and it makes its access with no ownership check, so no F8 even when nothing is claimed, where
R288 has F8 for `RD`, `WR` and `WRM`: the model's choice (log entry 11). The F8 of those three is in
`HostReadIsOneTransaction`, `HostWriteIsOneTransaction` and `MaskedWriteMergesAcc`. -/
def Obligations.StepRunsTheDecodedInstruction : Prop :=
  ∀ (s : State) (rest : List Turn) (t : Txn) (i : Instr),
    s.turns = .host :: rest → s.script[s.hpc]? = some (.bus t) → decode s.cfg.map t = .ok i →
    match exec i { s with turns := rest } with
    | .next s'   => step s = .next { s' with hpc := s'.hpc + 1 }
    | .fault r   => step s = .fault r
    | .refused r => step s = .refused r

/-- `withFetchWord` puts a table word where the next step fetches: that step is exactly the operation the word decodes
to. All of this is the model's: the placing stands for a load from outside the machine (log entry 5), the number is
read as one 41-bit word (log entry 17), and the operation placed is the model's own `bus`, which raises no F8 even
when nothing is claimed (log entry 11). R100 and R101 give only the word and what it decodes to. -/
def Obligations.PlacedWordRunsNext : Prop :=
  ∀ (s : State) (nbits w : Nat) (i : Instr),
    w % 2 ^ nbits < 2 ^ 41 → decode s.cfg.map (BitVec.ofNat 41 (w % 2 ^ nbits)) = .ok i →
    match exec i { s.withFetchWord nbits w with turns := s.turns } with
    | .next s'   => step (s.withFetchWord nbits w) = .next { s' with hpc := s'.hpc + 1 }
    | .fault r   => step (s.withFetchWord nbits w) = .fault r
    | .refused r => step (s.withFetchWord nbits w) = .refused r

/-- R281, R327 (F7; the spec's decision D31): the first `CLAIM` claims and unwrites `acc`; a repeated one records F7;
the counter moves on. -/
def Obligations.ClaimIsMadeOnce : Prop :=
  ∀ (s : State) (rest : List Turn), s.turns = .host :: rest → s.script[s.hpc]? = some .claim →
    (s.claimed = false → step s = .next { s with
      turns := rest, claimed := true, acc := none, hpc := s.hpc + 1 }) ∧
    (s.claimed = true → step s = .next { s with
      turns := rest, fault := { s.fault with f7 := true }, hist := s.hist ++ [.fault .f7], hpc := s.hpc + 1 })

/-- R282: `RD rname` is one read transaction at the register's offset; the word returned is in `acc` (and in the `Bus`
event); without a claim F8 is recorded first and the transaction is still made. -/
def Obligations.HostReadIsOneTransaction : Prop :=
  ∀ (s s1 : State) (rest : List Turn) (r : RName),
    s.turns = .host :: rest → s.script[s.hpc]? = some (.rd r) →
    s1 = (if s.claimed = true then { s with turns := rest } else
      { s with turns := rest, fault := { s.fault with f8 := true }, hist := s.hist ++ [.fault .f8] }) →
    ∃ s' v, busTxn (0#1 ++ s.cfg.map.off (r.reg s.cfg) ++ 0#32) s1 = .next s' ∧ s'.acc = some v ∧
      s'.hist.getLast? = some (.bus false (s.cfg.map.off (r.reg s.cfg)) v) ∧
      step s = .next { s' with hpc := s.hpc + 1 }

/-- R283: `WR wname, #imm` is one write transaction; `acc` does not change; F8 as for `RD`. -/
def Obligations.HostWriteIsOneTransaction : Prop :=
  ∀ (s s1 : State) (rest : List Turn) (w : WName) (imm : Word),
    s.turns = .host :: rest → s.script[s.hpc]? = some (.wr w imm) →
    s1 = (if s.claimed = true then { s with turns := rest } else
      { s with turns := rest, fault := { s.fault with f8 := true }, hist := s.hist ++ [.fault .f8] }) →
    ∃ s', busTxn (1#1 ++ s.cfg.map.off (w.reg s.cfg) ++ imm) s1 = .next s' ∧ s'.acc = s.acc ∧
      step s = .next { s' with hpc := s.hpc + 1 }

/-- R284: `WRM` writes `(acc & ~clr) | set` in one transaction; with `acc` unwritten it records F9 (after F8, if that
is due), makes no transaction, and the counter moves on. -/
def Obligations.MaskedWriteMergesAcc : Prop :=
  ∀ (s s1 : State) (rest : List Turn) (w : WName) (clr set : Word),
    s.turns = .host :: rest → s.script[s.hpc]? = some (.wrm w clr set) →
    s1 = (if s.claimed = true then { s with turns := rest } else
      { s with turns := rest, fault := { s.fault with f8 := true }, hist := s.hist ++ [.fault .f8] }) →
    (∀ a, s.acc = some a → ∃ s',
      busTxn (1#1 ++ s.cfg.map.off (w.reg s.cfg) ++ ((a &&& ~~~clr) ||| set)) s1 = .next s' ∧ s'.acc = some a ∧
      step s = .next { s' with hpc := s.hpc + 1 }) ∧
    (s.acc = none → step s = .next { s1 with
      fault := { s1.fault with f9 := true }, hist := s1.hist ++ [.fault .f9], hpc := s.hpc + 1 })

/-- R285: `BRZ` branches exactly when every masked bit of `acc` is clear; with `acc` unwritten it records F9 and falls
through. It makes no transaction. -/
def Obligations.BranchTestsMaskedAcc : Prop :=
  ∀ (s : State) (rest : List Turn) (mask : Word) (target : Nat),
    s.turns = .host :: rest → s.script[s.hpc]? = some (.brz mask target) →
    (∀ a, s.acc = some a → a &&& mask = 0 → step s = .next { s with turns := rest, hpc := target }) ∧
    (∀ a, s.acc = some a → a &&& mask ≠ 0 → step s = .next { s with turns := rest, hpc := s.hpc + 1 }) ∧
    (s.acc = none → step s = .next { s with
      turns := rest, fault := { s.fault with f9 := true }, hist := s.hist ++ [.fault .f9], hpc := s.hpc + 1 })

/-- R286: `RET8` appends `acc[7:0]` to `out`; with `acc` unwritten it records F9. It makes no transaction. -/
def Obligations.ReturnByteAppendsLowByte : Prop :=
  ∀ (s : State) (rest : List Turn), s.turns = .host :: rest → s.script[s.hpc]? = some .ret8 →
    (∀ a, s.acc = some a → step s = .next { s with
      turns := rest, out := s.out ++ [a.extractLsb' 0 8], hpc := s.hpc + 1 }) ∧
    (s.acc = none → step s = .next { s with
      turns := rest, fault := { s.fault with f9 := true }, hist := s.hist ++ [.fault .f9], hpc := s.hpc + 1 })

/-- R287: at `HALT`, and with `hpc` at the length of the script, the host has no further step. That its turn then
passes, with the script counter and all else as they were, is the model's choice (log entry 7); that a counter beyond
the end of the script is treated as at the end is the model's choice too (log entry 19): R23 and R287 say nothing of
it. -/
def Obligations.HaltStays : Prop :=
  ∀ (s : State) (rest : List Turn), s.turns = .host :: rest →
    (s.script[s.hpc]? = some .halt ∨ s.script.length ≤ s.hpc) → step s = .next { s with turns := rest }

/-! ## The driver protocol -/

/-- R128: the divisor formula, its other form, the source's worked example, and the baud rate outside its domain,
which has no divisor. The last clause, that `INIT` is then one operation, the refusal, is the model's choice of form
(log entry 15). -/
def Obligations.DivisorFormula : Prop :=
  (∀ clock baud : Nat, 0 < baud →
    divisor clock baud = some (clock / 8 / baud) ∧ divisor clock baud = some (clock / (8 * baud))) ∧
  divisor 25000000 115200 = some 27 ∧ (∀ clock, divisor clock 0 = none) ∧
  (∀ c : Cfg, c.targetBaud = 0 → initFor c = [.refuseDivisor])

/-- R300, R329 (X5): `INIT` with a divisor outside `1..0xFFFF` records the refusal X5 and makes no transaction. That
it stands in the script as one operation and moves the counter on by one is the model's choice (log entry 15). -/
def Obligations.InitRefusesDivisorOutOfRange : Prop :=
  ∀ (s : State) (rest : List Turn) (d : Nat), (d = 0 ∨ 0xFFFF < d) →
    s.turns = .host :: rest → s.script[s.hpc]? = (initOps s.cfg d)[0]? →
    (initOps s.cfg d).length = 1 ∧
    step s = .next { s with
      turns := rest, refused := { s.refused with x5 := true }, hist := s.hist ++ [.refuse .x5], hpc := s.hpc + 1 }

/-- R301, of the runs in which the 13 steps of `INIT #d` are the host's and follow one another: the state reached from
any state with `LCR[7] = 0`, every stored register as given, the queues empty, the shifter, the error flags, the line
and the fault record as before; no refusal is added unless one of the bits written back asks for one. R301's runs with
turns of the engines or arriving characters in between are not in this statement. -/
def Obligations.InitReachesItsEndState : Prop :=
  ∀ (s : State) (rest : List Turn) (d : Nat),
    s.cfg.wf = true → 1 ≤ d → d ≤ 0xFFFF → s.claimed = true → s.blk.lcr.getLsbD 7 = false →
    s.turns = List.replicate 13 .host ++ rest →
    (∀ j, j < 13 → s.script[s.hpc + j]? = (initOps s.cfg d)[j]?) →
    ∃ s', Host.Core.run core 13 s = .next s' ∧
      s'.blk = { s.blk with
        selw := s.blk.selw ||| (1#32 <<< s.cfg.selBit.val), cntl := s.blk.cntl ||| 0x03#8,
        lcr := s.blk.lcr ||| 0x03#8, mcr := s.blk.mcr &&& ~~~0x02#5, ier := 0#4, baud := BitVec.ofNat 16 d,
        txq := [], rxq := [] } ∧
      s'.hpc = s.hpc + 13 ∧ s'.turns = rest ∧ s'.fault = s.fault ∧ s'.lineOut = s.lineOut ∧ s'.out = s.out ∧
      s'.claimed = true ∧
      (s.blk.lcr.getLsbD 6 = false → s.blk.mcr.getLsbD 4 = false → s.blk.cntl.getLsbD 2 = false →
        s.blk.cntl.getLsbD 3 = false → s'.refused = s.refused)

/-- R302, of the runs in which the 26 steps are the host's and follow one another: a second `INIT` leaves the stored
registers exactly as one `INIT` does (and empties the queues again). -/
def Obligations.InitIsIdempotentOnRegisters : Prop :=
  ∀ (s : State) (rest : List Turn) (d : Nat),
    s.cfg.wf = true → 1 ≤ d → d ≤ 0xFFFF → s.claimed = true → s.blk.lcr.getLsbD 7 = false →
    s.turns = List.replicate 26 .host ++ rest →
    (∀ j, j < 26 → s.script[s.hpc + j]? = (initOps s.cfg d ++ initOps s.cfg d)[j]?) →
    ∃ s1 s2, Host.Core.run core 13 s = .next s1 ∧ Host.Core.run core 26 s = .next s2 ∧
      s2.blk.selw = s1.blk.selw ∧ s2.blk.cntl = s1.blk.cntl ∧ s2.blk.lcr = s1.blk.lcr ∧ s2.blk.mcr = s1.blk.mcr ∧
      s2.blk.ier = s1.blk.ier ∧ s2.blk.baud = s1.blk.baud ∧ s2.blk.scr = s1.blk.scr ∧
      s2.blk.txq = [] ∧ s2.blk.rxq = []

/-- R305, last claim ("Faults: never F4"): while the host is in a `WRITE_BYTE` that stands in its script, whatever the
engines and the environment do in between, no F4 is recorded, provided there is no `RESET`. The premise looks at every
state of the run so far: the host has not left the operation. -/
def Obligations.WriteByteNeverOverflows : Prop :=
  ∀ (s : State) (b : Byte) (p k : Nat) (s' : State),
    s.inv = true → s.hpc = p → (∀ j, j < 3 → s.script[p + j]? = (writeByte p b)[j]?) →
    (∀ j t, j < k → Host.Core.run core j s = .next t → t.hpc ≠ p + 3) →
    Host.Core.run core k s = .next s' → Event.reset ∉ s'.hist.drop s.hist.length →
    s'.fault.f4 = s.fault.f4

/-- R308, "Faults: never F5": the same of a `READ_BYTE` and F5. -/
def Obligations.ReadByteNeverReadsEmpty : Prop :=
  ∀ (s : State) (p k : Nat) (s' : State),
    s.inv = true → s.hpc = p → (∀ j, j < 4 → s.script[p + j]? = (readByte p)[j]?) →
    (∀ j t, j < k → Host.Core.run core j s = .next t → t.hpc ≠ p + 4) →
    Host.Core.run core k s = .next s' → Event.reset ∉ s'.hist.drop s.hist.length →
    s'.fault.f5 = s.fault.f5

/-! ## The whole machine -/

/-- R45: the invariant holds after reset, whatever the OPEN parameters are. -/
def Obligations.InvariantAtReset : Prop := State.reset.inv = true

/-- R45: every step of every agent keeps the invariant: the queues fit their depths and the parameters meet their
constraints. -/
def Obligations.EveryStepKeepsInvariant : Prop :=
  ∀ s s' : State, s.inv = true → step s = .next s' → s'.inv = true

/-- R42, R45, R48: the records only grow, the claim never falls, the configuration and the script are constant. -/
def Obligations.RecordsOnlyGrow : Prop :=
  ∀ s s' : State, step s = .next s' →
    (∀ c, s.fault.has c = true → s'.fault.has c = true) ∧ (∀ c, s.refused.has c = true → s'.refused.has c = true) ∧
    s.hist <+: s'.hist ∧ s.lineOut <+: s'.lineOut ∧ s.out <+: s'.out ∧ (s.claimed = true → s'.claimed = true) ∧
    s'.cfg = s.cfg ∧ s'.script = s.script ∧ s.draws ≤ s'.draws

/-- R360 ("the only step besides host writes that changes a stored register"): a step that records neither a write
transaction nor a `RESET` changes no stored register. -/
def Obligations.OnlyHostWritesAndResetChangeRegisters : Prop :=
  ∀ s s' : State, step s = .next s' →
    (∀ off v, Event.bus true off v ∉ s'.hist.drop s.hist.length) → Event.reset ∉ s'.hist.drop s.hist.length →
    s'.blk.selw = s.blk.selw ∧ s'.blk.ier = s.blk.ier ∧ s'.blk.lcr = s.blk.lcr ∧ s'.blk.mcr = s.blk.mcr ∧
    s'.blk.scr = s.blk.scr ∧ s'.blk.cntl = s.blk.cntl ∧ s'.blk.baud = s.blk.baud

/-- R175: once `RD_LSR` has returned bit 5 set there is room in the transmit queue at every later step, as long as no
`WR_THR` and no `RESET` has happened since. -/
def Obligations.RoomPersistsAfterPoll : Prop :=
  ∀ (s s0 s' : State) (v : Word) (k : Nat),
    s.inv = true → s.usel = true → exec .rdLsr s = .next s0 → s0.acc = some v → v.getLsbD 5 = true →
    Host.Core.run core k s0 = .next s' →
    (∀ d, Event.bus true s.cfg.map.offData d ∉ s'.hist.drop s0.hist.length) →
    Event.reset ∉ s'.hist.drop s0.hist.length →
    s'.blk.txq.length < s'.cfg.txDepth

/-- R176: once `RD_LSR` has returned bit 0 set there is a character in the receive queue at every later step, as long
as no `RD_RBR`, no `RXCLR` and no `RESET` has happened since. -/
def Obligations.DataPersistsAfterPoll : Prop :=
  ∀ (s s0 s' : State) (v : Word) (k : Nat),
    s.usel = true → exec .rdLsr s = .next s0 → s0.acc = some v → v.getLsbD 0 = true →
    Host.Core.run core k s0 = .next s' →
    (∀ d, Event.bus false s.cfg.map.offData d ∉ s'.hist.drop s0.hist.length) →
    (∀ tx, Event.fifoClr true tx ∉ s'.hist.drop s0.hist.length) →
    Event.reset ∉ s'.hist.drop s0.hist.length →
    s'.blk.rxq.length > 0

/-- R268, the transmit half, one step at a time: the characters in the shifter and the queue, in order, and the line
together are a first-in first-out path. A step leaves both alone, appends the low byte of a written word at the tail,
or moves the head, masked, to the line; only a clear or a `RESET` discards. -/
def Obligations.TransmitPathIsFifo : Prop :=
  ∀ s s' : State, step s = .next s' →
    let path := s.blk.tsr.toList ++ s.blk.txq
    let path' := s'.blk.tsr.toList ++ s'.blk.txq
    let new := s'.hist.drop s.hist.length
    (path' = path ∧ s'.lineOut = s.lineOut) ∨
    (∃ v : Word, Event.bus true s.cfg.map.offData v ∈ new ∧ path' = path ++ [v.extractLsb' 0 8] ∧
      s'.lineOut = s.lineOut) ∨
    (∃ (c : Byte) (f : Frame), path = c :: path' ∧ f.char = c &&& wlmask (s.blk.lcr.extractLsb' 0 2) ∧
      Event.txEmit f ∈ new ∧ s'.lineOut = s.lineOut ++ [f]) ∨
    (∃ rx, Event.fifoClr rx true ∈ new ∧ s'.blk.txq = [] ∧ s'.blk.tsr = s.blk.tsr ∧ s'.lineOut = s.lineOut) ∨
    (Event.reset ∈ new ∧ s'.blk = s.cfg.rst ∧ s'.lineOut = s.lineOut)
end

