-- ==== Sys2Proof/Laws/Decode.lean ====
section
/-! SUPPORT. The fields of a transaction word, the register map, and what decoding answers. -/

namespace Sys2Proof

/-- The offset of the word with a given selector and data. -/
@[simp] theorem txnOff_sel_append (sel : BitVec 9) (v : Word) : txnOff (sel ++ v) = sel.extractLsb' 0 8 := by
  apply BitVec.eq_of_getLsbD_eq
  intro i hi
  simp only [txnOff, BitVec.getLsbD_extractLsb', BitVec.getLsbD_append, hi, decide_true, Bool.true_and]
  rw [if_neg (by omega)]
  congr 1
  omega

/-- The direction of the word with a given selector and data. -/
@[simp] theorem txnWe_sel_append (sel : BitVec 9) (v : Word) : txnWe (sel ++ v) = sel.getLsbD 8 := by
  simp only [txnWe, BitVec.getLsbD_append]
  rfl

/-- The data of the word with a given selector and data. -/
@[simp] theorem txnData_sel_append (sel : BitVec 9) (v : Word) : txnData (sel ++ v) = v := by
  apply BitVec.eq_of_getLsbD_eq
  intro i hi
  simp only [txnData, BitVec.getLsbD_extractLsb', BitVec.getLsbD_append, hi, Nat.zero_add, decide_true, Bool.true_and,
    if_true]

@[simp] theorem selector_off (we : BitVec 1) (off : Byte) : (we ++ off : BitVec 9).extractLsb' 0 8 = off := by
  apply BitVec.eq_of_getLsbD_eq
  intro i hi
  simp only [BitVec.getLsbD_extractLsb', BitVec.getLsbD_append, hi, Nat.zero_add, decide_true, Bool.true_and, if_true]

@[simp] theorem selector_we (we : BitVec 1) (off : Byte) : (we ++ off : BitVec 9).getLsbD 8 = we.getLsbD 0 := by
  simp only [BitVec.getLsbD_append]
  rfl

@[simp] theorem txnOff_mkTxn (we : Bool) (off : Byte) (v : Word) : txnOff (mkTxn we off v) = off :=
  (txnOff_sel_append _ v).trans (selector_off _ off)

@[simp] theorem txnWe_mkTxn (we : Bool) (off : Byte) (v : Word) : txnWe (mkTxn we off v) = we :=
  (txnWe_sel_append _ v).trans ((selector_we _ off).trans (by simp))

@[simp] theorem txnData_mkTxn (we : Bool) (off : Byte) (v : Word) : txnData (mkTxn we off v) = v :=
  txnData_sel_append _ v

/-- A word is its three fields. -/
theorem mkTxn_fields (t : Txn) : mkTxn (txnWe t) (txnOff t) (txnData t) = t := by
  apply BitVec.eq_of_getLsbD_eq
  intro i hi
  simp only [mkTxn, txnWe, txnOff, txnData, BitVec.getLsbD_append, BitVec.getLsbD_extractLsb', BitVec.getLsbD_ofBool]
  by_cases h1 : i < 32
  · simp [h1]
  · by_cases h2 : i - 32 < 8
    · simp [h1, h2, show 32 + (i - 32) = i by omega]
    · have : i = 40 := by omega
      subst this
      simp

/-- Every register is in the list of all. -/
theorem Reg.mem_all (r : Reg) : r ∈ Reg.all := by cases r <;> decide

/-- A register that the map answers stands at the offset asked for. -/
theorem RegMap.off_of_lookup {m : RegMap} {off : Byte} {r : Reg} (h : m.lookup off = some r) : m.off r = off := by
  simpa using List.find?_some h

/-- The map answers none exactly where no register stands. -/
theorem RegMap.lookup_eq_none {m : RegMap} {off : Byte} : m.lookup off = none ↔ ∀ r, m.off r ≠ off := by
  simp [RegMap.lookup, List.find?_eq_none, Reg.mem_all]

/-- Offsets that rise strictly are distinct. -/
theorem RegMap.off_injective {m : RegMap} (h : m.wf = true) {r q : Reg} (e : m.off r = m.off q) : r = q := by
  simp only [RegMap.wf, List.map, List.tail, List.zip, List.zipWith, List.all, Bool.and_eq_true, decide_eq_true_eq] at h
  have e' := congrArg BitVec.toNat e
  cases r <;> cases q <;> first | rfl | (simp only [RegMap.off] at e'; omega)

/-- With distinct offsets the map answers each register at its own offset. -/
theorem RegMap.lookup_off {m : RegMap} (h : m.wf = true) (r : Reg) : m.lookup (m.off r) = some r := by
  cases e : m.lookup (m.off r) with
  | none   => exact absurd rfl (RegMap.lookup_eq_none.mp e r)
  | some q => rw [RegMap.off_injective h (RegMap.off_of_lookup e)]

/-- The offsets are multiples of 4. -/
theorem RegMap.off_aligned {m : RegMap} (h : m.wf = true) (r : Reg) : (m.off r).toNat % 4 = 0 := by
  simp only [RegMap.wf, List.map, List.tail, List.zip, List.zipWith, List.all, Bool.and_eq_true, decide_eq_true_eq,
    beq_iff_eq] at h
  cases r <;> simp only [RegMap.off] <;> omega

theorem RegMap.std_wf : RegMap.std.wf = true := by decide

@[simp] theorem readView_fields (r : Reg) : instrFields (readView r) = (false, r, 0) := by cases r <;> rfl

@[simp] theorem writeView_fields (v : Word) (r : Reg) : instrFields (writeView v r) = (true, r, v) := by
  cases r <;> rfl

/-- An operation is the view of its register in its direction. -/
theorem Instr.eq_view (i : Instr) : i = if i.we then writeView i.wdata i.reg else readView i.reg := by
  cases i <;> rfl

/-- What decoding the word of a direction, an offset and a data word answers. -/
theorem decode_mkTxn (m : RegMap) (we : Bool) (off : Byte) (v : Word) :
    decode m (mkTxn we off v) =
      if off.toNat % 4 ≠ 0 then .error .badAccess
      else match m.lookup off with
        | none   => .error .unmapped
        | some r => .ok (if we then writeView v r else readView r) := by
  by_cases h : off.toNat % 4 ≠ 0
  · simp [decode, h]
  · cases hl : m.lookup off <;> simp [decode, h, hl]

/-- Decoding a word whose selector addresses a register: only the selector is read, whatever the data. -/
theorem decode_selector {m : RegMap} {sel : BitVec 9} {r : Reg} (hr : m.lookup (sel.extractLsb' 0 8) = some r)
    (h4 : (sel.extractLsb' 0 8).toNat % 4 = 0) (v : Word) :
    decode m (sel ++ v) = .ok (if sel.getLsbD 8 then writeView v r else readView r) := by
  unfold decode
  rw [txnOff_sel_append, txnWe_sel_append, txnData_sel_append, hr, if_neg (by omega)]

/-- Decoding at the offset of a register. -/
theorem decode_at {m : RegMap} (h : m.wf = true) (we : Bool) (r : Reg) (v : Word) :
    decode m (mkTxn we (m.off r) v) = .ok (if we then writeView v r else readView r) := by
  simp [decode_mkTxn, RegMap.off_aligned h, RegMap.lookup_off h]

/-- What a word that decodes is: aligned, at the offset of the operation's register, with its direction and, for a
write, its data. -/
theorem decode_ok {m : RegMap} {t : Txn} {i : Instr} (h : decode m t = .ok i) :
    m.off i.reg = txnOff t ∧ i.we = txnWe t ∧ (txnWe t = true → i.wdata = txnData t) ∧
      (txnWe t = false → i.wdata = 0) := by
  unfold decode at h
  split at h
  · cases h
  · split at h
    · cases h
    · next r e =>
      cases h
      have := RegMap.off_of_lookup e
      cases hw : txnWe t <;> simp [Instr.reg, Instr.we, Instr.wdata, this]

end Sys2Proof
end

