-- ==== Sys2Proof/Laws/State.lean ====
section
/-! SUPPORT. One lemma per field per update of the state, each true by `rfl`, so that no later proof unfolds a record
update. -/

namespace Sys2Proof.Machine

/-! ### `State.log` -/

@[simp] theorem State.log_cfg (e : Event) (s : State) : (s.log e).cfg = s.cfg := rfl
@[simp] theorem State.log_blk (e : Event) (s : State) : (s.log e).blk = s.blk := rfl
@[simp] theorem State.log_lineOut (e : Event) (s : State) : (s.log e).lineOut = s.lineOut := rfl
@[simp] theorem State.log_fault (e : Event) (s : State) : (s.log e).fault = s.fault := rfl
@[simp] theorem State.log_refused (e : Event) (s : State) : (s.log e).refused = s.refused := rfl
@[simp] theorem State.log_hist (e : Event) (s : State) : (s.log e).hist = s.hist ++ [e] := rfl
@[simp] theorem State.log_hpc (e : Event) (s : State) : (s.log e).hpc = s.hpc := rfl
@[simp] theorem State.log_acc (e : Event) (s : State) : (s.log e).acc = s.acc := rfl
@[simp] theorem State.log_out (e : Event) (s : State) : (s.log e).out = s.out := rfl
@[simp] theorem State.log_claimed (e : Event) (s : State) : (s.log e).claimed = s.claimed := rfl
@[simp] theorem State.log_script (e : Event) (s : State) : (s.log e).script = s.script := rfl
@[simp] theorem State.log_turns (e : Event) (s : State) : (s.log e).turns = s.turns := rfl
@[simp] theorem State.log_draws (e : Event) (s : State) : (s.log e).draws = s.draws := rfl

/-! ### `State.addFault` -/

@[simp] theorem State.addFault_cfg (c : FaultCode) (s : State) : (s.addFault c).cfg = s.cfg := rfl
@[simp] theorem State.addFault_blk (c : FaultCode) (s : State) : (s.addFault c).blk = s.blk := rfl
@[simp] theorem State.addFault_lineOut (c : FaultCode) (s : State) : (s.addFault c).lineOut = s.lineOut := rfl
@[simp] theorem State.addFault_fault (c : FaultCode) (s : State) : (s.addFault c).fault = s.fault.add c := rfl
@[simp] theorem State.addFault_refused (c : FaultCode) (s : State) : (s.addFault c).refused = s.refused := rfl
@[simp] theorem State.addFault_hist (c : FaultCode) (s : State) : (s.addFault c).hist = s.hist := rfl
@[simp] theorem State.addFault_hpc (c : FaultCode) (s : State) : (s.addFault c).hpc = s.hpc := rfl
@[simp] theorem State.addFault_acc (c : FaultCode) (s : State) : (s.addFault c).acc = s.acc := rfl
@[simp] theorem State.addFault_out (c : FaultCode) (s : State) : (s.addFault c).out = s.out := rfl
@[simp] theorem State.addFault_claimed (c : FaultCode) (s : State) : (s.addFault c).claimed = s.claimed := rfl
@[simp] theorem State.addFault_script (c : FaultCode) (s : State) : (s.addFault c).script = s.script := rfl
@[simp] theorem State.addFault_turns (c : FaultCode) (s : State) : (s.addFault c).turns = s.turns := rfl
@[simp] theorem State.addFault_draws (c : FaultCode) (s : State) : (s.addFault c).draws = s.draws := rfl

/-! ### `State.addRefuse` -/

@[simp] theorem State.addRefuse_cfg (c : RefuseCode) (s : State) : (s.addRefuse c).cfg = s.cfg := rfl
@[simp] theorem State.addRefuse_blk (c : RefuseCode) (s : State) : (s.addRefuse c).blk = s.blk := rfl
@[simp] theorem State.addRefuse_lineOut (c : RefuseCode) (s : State) : (s.addRefuse c).lineOut = s.lineOut := rfl
@[simp] theorem State.addRefuse_fault (c : RefuseCode) (s : State) : (s.addRefuse c).fault = s.fault := rfl
@[simp] theorem State.addRefuse_refused (c : RefuseCode) (s : State) : (s.addRefuse c).refused = s.refused.add c := rfl
@[simp] theorem State.addRefuse_hist (c : RefuseCode) (s : State) : (s.addRefuse c).hist = s.hist := rfl
@[simp] theorem State.addRefuse_hpc (c : RefuseCode) (s : State) : (s.addRefuse c).hpc = s.hpc := rfl
@[simp] theorem State.addRefuse_acc (c : RefuseCode) (s : State) : (s.addRefuse c).acc = s.acc := rfl
@[simp] theorem State.addRefuse_out (c : RefuseCode) (s : State) : (s.addRefuse c).out = s.out := rfl
@[simp] theorem State.addRefuse_claimed (c : RefuseCode) (s : State) : (s.addRefuse c).claimed = s.claimed := rfl
@[simp] theorem State.addRefuse_script (c : RefuseCode) (s : State) : (s.addRefuse c).script = s.script := rfl
@[simp] theorem State.addRefuse_turns (c : RefuseCode) (s : State) : (s.addRefuse c).turns = s.turns := rfl
@[simp] theorem State.addRefuse_draws (c : RefuseCode) (s : State) : (s.addRefuse c).draws = s.draws := rfl

/-! ### `State.setBlk` -/

@[simp] theorem State.setBlk_cfg (b : Block) (s : State) : (s.setBlk b).cfg = s.cfg := rfl
@[simp] theorem State.setBlk_blk (b : Block) (s : State) : (s.setBlk b).blk = b := rfl
@[simp] theorem State.setBlk_lineOut (b : Block) (s : State) : (s.setBlk b).lineOut = s.lineOut := rfl
@[simp] theorem State.setBlk_fault (b : Block) (s : State) : (s.setBlk b).fault = s.fault := rfl
@[simp] theorem State.setBlk_refused (b : Block) (s : State) : (s.setBlk b).refused = s.refused := rfl
@[simp] theorem State.setBlk_hist (b : Block) (s : State) : (s.setBlk b).hist = s.hist := rfl
@[simp] theorem State.setBlk_hpc (b : Block) (s : State) : (s.setBlk b).hpc = s.hpc := rfl
@[simp] theorem State.setBlk_acc (b : Block) (s : State) : (s.setBlk b).acc = s.acc := rfl
@[simp] theorem State.setBlk_out (b : Block) (s : State) : (s.setBlk b).out = s.out := rfl
@[simp] theorem State.setBlk_claimed (b : Block) (s : State) : (s.setBlk b).claimed = s.claimed := rfl
@[simp] theorem State.setBlk_script (b : Block) (s : State) : (s.setBlk b).script = s.script := rfl
@[simp] theorem State.setBlk_turns (b : Block) (s : State) : (s.setBlk b).turns = s.turns := rfl
@[simp] theorem State.setBlk_draws (b : Block) (s : State) : (s.setBlk b).draws = s.draws := rfl

/-! ### `State.setAcc` -/

@[simp] theorem State.setAcc_cfg (v : Word) (s : State) : (s.setAcc v).cfg = s.cfg := rfl
@[simp] theorem State.setAcc_blk (v : Word) (s : State) : (s.setAcc v).blk = s.blk := rfl
@[simp] theorem State.setAcc_lineOut (v : Word) (s : State) : (s.setAcc v).lineOut = s.lineOut := rfl
@[simp] theorem State.setAcc_fault (v : Word) (s : State) : (s.setAcc v).fault = s.fault := rfl
@[simp] theorem State.setAcc_refused (v : Word) (s : State) : (s.setAcc v).refused = s.refused := rfl
@[simp] theorem State.setAcc_hist (v : Word) (s : State) : (s.setAcc v).hist = s.hist := rfl
@[simp] theorem State.setAcc_hpc (v : Word) (s : State) : (s.setAcc v).hpc = s.hpc := rfl
@[simp] theorem State.setAcc_acc (v : Word) (s : State) : (s.setAcc v).acc = some v := rfl
@[simp] theorem State.setAcc_out (v : Word) (s : State) : (s.setAcc v).out = s.out := rfl
@[simp] theorem State.setAcc_claimed (v : Word) (s : State) : (s.setAcc v).claimed = s.claimed := rfl
@[simp] theorem State.setAcc_script (v : Word) (s : State) : (s.setAcc v).script = s.script := rfl
@[simp] theorem State.setAcc_turns (v : Word) (s : State) : (s.setAcc v).turns = s.turns := rfl
@[simp] theorem State.setAcc_draws (v : Word) (s : State) : (s.setAcc v).draws = s.draws := rfl

/-! ### `State.drew` -/

@[simp] theorem State.drew_cfg (s : State) : (s.drew).cfg = s.cfg := rfl
@[simp] theorem State.drew_blk (s : State) : (s.drew).blk = s.blk := rfl
@[simp] theorem State.drew_lineOut (s : State) : (s.drew).lineOut = s.lineOut := rfl
@[simp] theorem State.drew_fault (s : State) : (s.drew).fault = s.fault := rfl
@[simp] theorem State.drew_refused (s : State) : (s.drew).refused = s.refused := rfl
@[simp] theorem State.drew_hist (s : State) : (s.drew).hist = s.hist := rfl
@[simp] theorem State.drew_hpc (s : State) : (s.drew).hpc = s.hpc := rfl
@[simp] theorem State.drew_acc (s : State) : (s.drew).acc = s.acc := rfl
@[simp] theorem State.drew_out (s : State) : (s.drew).out = s.out := rfl
@[simp] theorem State.drew_claimed (s : State) : (s.drew).claimed = s.claimed := rfl
@[simp] theorem State.drew_script (s : State) : (s.drew).script = s.script := rfl
@[simp] theorem State.drew_turns (s : State) : (s.drew).turns = s.turns := rfl
@[simp] theorem State.drew_draws (s : State) : (s.drew).draws = s.draws + 1 := rfl

/-! ### `State.advance` -/

@[simp] theorem State.advance_cfg (s : State) : (s.advance).cfg = s.cfg := rfl
@[simp] theorem State.advance_blk (s : State) : (s.advance).blk = s.blk := rfl
@[simp] theorem State.advance_lineOut (s : State) : (s.advance).lineOut = s.lineOut := rfl
@[simp] theorem State.advance_fault (s : State) : (s.advance).fault = s.fault := rfl
@[simp] theorem State.advance_refused (s : State) : (s.advance).refused = s.refused := rfl
@[simp] theorem State.advance_hist (s : State) : (s.advance).hist = s.hist := rfl
@[simp] theorem State.advance_hpc (s : State) : (s.advance).hpc = s.hpc + 1 := rfl
@[simp] theorem State.advance_acc (s : State) : (s.advance).acc = s.acc := rfl
@[simp] theorem State.advance_out (s : State) : (s.advance).out = s.out := rfl
@[simp] theorem State.advance_claimed (s : State) : (s.advance).claimed = s.claimed := rfl
@[simp] theorem State.advance_script (s : State) : (s.advance).script = s.script := rfl
@[simp] theorem State.advance_turns (s : State) : (s.advance).turns = s.turns := rfl
@[simp] theorem State.advance_draws (s : State) : (s.advance).draws = s.draws := rfl

/-! ### `State.raise` -/

@[simp] theorem State.raise_cfg (c : FaultCode) (s : State) : (s.raise c).cfg = s.cfg := rfl
@[simp] theorem State.raise_blk (c : FaultCode) (s : State) : (s.raise c).blk = s.blk := rfl
@[simp] theorem State.raise_lineOut (c : FaultCode) (s : State) : (s.raise c).lineOut = s.lineOut := rfl
@[simp] theorem State.raise_fault (c : FaultCode) (s : State) : (s.raise c).fault = s.fault.add c := rfl
@[simp] theorem State.raise_refused (c : FaultCode) (s : State) : (s.raise c).refused = s.refused := rfl
@[simp] theorem State.raise_hist (c : FaultCode) (s : State) : (s.raise c).hist = s.hist ++ [.fault c] := rfl
@[simp] theorem State.raise_hpc (c : FaultCode) (s : State) : (s.raise c).hpc = s.hpc := rfl
@[simp] theorem State.raise_acc (c : FaultCode) (s : State) : (s.raise c).acc = s.acc := rfl
@[simp] theorem State.raise_out (c : FaultCode) (s : State) : (s.raise c).out = s.out := rfl
@[simp] theorem State.raise_claimed (c : FaultCode) (s : State) : (s.raise c).claimed = s.claimed := rfl
@[simp] theorem State.raise_script (c : FaultCode) (s : State) : (s.raise c).script = s.script := rfl
@[simp] theorem State.raise_turns (c : FaultCode) (s : State) : (s.raise c).turns = s.turns := rfl
@[simp] theorem State.raise_draws (c : FaultCode) (s : State) : (s.raise c).draws = s.draws := rfl

/-! ### `State.refuse` -/

@[simp] theorem State.refuse_cfg (c : RefuseCode) (s : State) : (s.refuse c).cfg = s.cfg := rfl
@[simp] theorem State.refuse_blk (c : RefuseCode) (s : State) : (s.refuse c).blk = s.blk := rfl
@[simp] theorem State.refuse_lineOut (c : RefuseCode) (s : State) : (s.refuse c).lineOut = s.lineOut := rfl
@[simp] theorem State.refuse_fault (c : RefuseCode) (s : State) : (s.refuse c).fault = s.fault := rfl
@[simp] theorem State.refuse_refused (c : RefuseCode) (s : State) : (s.refuse c).refused = s.refused.add c := rfl
@[simp] theorem State.refuse_hist (c : RefuseCode) (s : State) : (s.refuse c).hist = s.hist ++ [.refuse c] := rfl
@[simp] theorem State.refuse_hpc (c : RefuseCode) (s : State) : (s.refuse c).hpc = s.hpc := rfl
@[simp] theorem State.refuse_acc (c : RefuseCode) (s : State) : (s.refuse c).acc = s.acc := rfl
@[simp] theorem State.refuse_out (c : RefuseCode) (s : State) : (s.refuse c).out = s.out := rfl
@[simp] theorem State.refuse_claimed (c : RefuseCode) (s : State) : (s.refuse c).claimed = s.claimed := rfl
@[simp] theorem State.refuse_script (c : RefuseCode) (s : State) : (s.refuse c).script = s.script := rfl
@[simp] theorem State.refuse_turns (c : RefuseCode) (s : State) : (s.refuse c).turns = s.turns := rfl
@[simp] theorem State.refuse_draws (c : RefuseCode) (s : State) : (s.refuse c).draws = s.draws := rfl

/-! ### `State.endRead` -/

@[simp] theorem State.endRead_cfg (off : Byte) (v : Word) (s : State) : (s.endRead off v).cfg = s.cfg := rfl
@[simp] theorem State.endRead_blk (off : Byte) (v : Word) (s : State) : (s.endRead off v).blk = s.blk := rfl
@[simp] theorem State.endRead_lineOut (off : Byte) (v : Word) (s : State) : (s.endRead off v).lineOut = s.lineOut := rfl
@[simp] theorem State.endRead_fault (off : Byte) (v : Word) (s : State) : (s.endRead off v).fault = s.fault := rfl
@[simp] theorem State.endRead_refused (off : Byte) (v : Word) (s : State) : (s.endRead off v).refused = s.refused := rfl
@[simp] theorem State.endRead_hist (off : Byte) (v : Word) (s : State) : (s.endRead off v).hist = s.hist ++ [.bus false off v] := rfl
@[simp] theorem State.endRead_hpc (off : Byte) (v : Word) (s : State) : (s.endRead off v).hpc = s.hpc := rfl
@[simp] theorem State.endRead_acc (off : Byte) (v : Word) (s : State) : (s.endRead off v).acc = some v := rfl
@[simp] theorem State.endRead_out (off : Byte) (v : Word) (s : State) : (s.endRead off v).out = s.out := rfl
@[simp] theorem State.endRead_claimed (off : Byte) (v : Word) (s : State) : (s.endRead off v).claimed = s.claimed := rfl
@[simp] theorem State.endRead_script (off : Byte) (v : Word) (s : State) : (s.endRead off v).script = s.script := rfl
@[simp] theorem State.endRead_turns (off : Byte) (v : Word) (s : State) : (s.endRead off v).turns = s.turns := rfl
@[simp] theorem State.endRead_draws (off : Byte) (v : Word) (s : State) : (s.endRead off v).draws = s.draws := rfl

/-! ### `State.endWrite` -/

@[simp] theorem State.endWrite_cfg (off : Byte) (v : Word) (s : State) : (s.endWrite off v).cfg = s.cfg := rfl
@[simp] theorem State.endWrite_blk (off : Byte) (v : Word) (s : State) : (s.endWrite off v).blk = s.blk := rfl
@[simp] theorem State.endWrite_lineOut (off : Byte) (v : Word) (s : State) : (s.endWrite off v).lineOut = s.lineOut := rfl
@[simp] theorem State.endWrite_fault (off : Byte) (v : Word) (s : State) : (s.endWrite off v).fault = s.fault := rfl
@[simp] theorem State.endWrite_refused (off : Byte) (v : Word) (s : State) : (s.endWrite off v).refused = s.refused := rfl
@[simp] theorem State.endWrite_hist (off : Byte) (v : Word) (s : State) : (s.endWrite off v).hist = s.hist ++ [.bus true off v] := rfl
@[simp] theorem State.endWrite_hpc (off : Byte) (v : Word) (s : State) : (s.endWrite off v).hpc = s.hpc := rfl
@[simp] theorem State.endWrite_acc (off : Byte) (v : Word) (s : State) : (s.endWrite off v).acc = s.acc := rfl
@[simp] theorem State.endWrite_out (off : Byte) (v : Word) (s : State) : (s.endWrite off v).out = s.out := rfl
@[simp] theorem State.endWrite_claimed (off : Byte) (v : Word) (s : State) : (s.endWrite off v).claimed = s.claimed := rfl
@[simp] theorem State.endWrite_script (off : Byte) (v : Word) (s : State) : (s.endWrite off v).script = s.script := rfl
@[simp] theorem State.endWrite_turns (off : Byte) (v : Word) (s : State) : (s.endWrite off v).turns = s.turns := rfl
@[simp] theorem State.endWrite_draws (off : Byte) (v : Word) (s : State) : (s.endWrite off v).draws = s.draws := rfl

end Sys2Proof.Machine
end

