-- ==== Sys2Proof/Laws/Ops.lean ====
section
/-! SUPPORT. The shared operations, each said once: the sticky sets, the gate, `BusRead` and `BusWrite`, and `exec` as
one read or write of the register the operation addresses. -/

namespace Sys2Proof.Machine

/-! ### Sticky sets -/

theorem FaultSet.has_add (q : FaultSet) (c d : FaultCode) : (q.add c).has d = (q.has d || c == d) := by
  cases c <;> cases d <;> simp [FaultSet.add, FaultSet.has]

theorem RefuseSet.has_add (q : RefuseSet) (c d : RefuseCode) : (q.add c).has d = (q.has d || c == d) := by
  cases c <;> cases d <;> simp [RefuseSet.add, RefuseSet.has]

/-- Every code of the larger set is in the smaller one too. -/
theorem FaultSet.has_of_add {q : FaultSet} {c d : FaultCode} (h : q.has d = true) : (q.add c).has d = true := by
  simp [FaultSet.has_add, h]

theorem RefuseSet.has_of_add {q : RefuseSet} {c d : RefuseCode} (h : q.has d = true) : (q.add c).has d = true := by
  simp [RefuseSet.has_add, h]

/-! ### The gate -/

/-- The pair is gated by nothing (R160). -/
@[simp] theorem gateFault_sel0 (s : State) : s.gateFault .sel0 = none := by simp [State.gateFault, Reg.gated]

@[simp] theorem gateFault_sel1 (s : State) : s.gateFault .sel1 = none := by simp [State.gateFault, Reg.gated]

/-- A gated register while unselected (R321). -/
theorem gateFault_unselected {s : State} {r : Reg} (hr : r.gated = true) (hu : s.usel = false) :
    s.gateFault r = some .f1 := by simp [State.gateFault, hr, hu]

/-- `DATA` and `IER` under the mode flag (R326). -/
theorem gateFault_modeFlag {s : State} {r : Reg} (hr : r = .data ∨ r = .ier) (hu : s.usel = true)
    (hd : s.dlab = true) : s.gateFault r = some .f6 := by
  rcases hr with rfl | rfl <;> simp [State.gateFault, Reg.gated, hu, hd]

/-- Selected, and the mode flag clear where it counts: the register answers. -/
theorem gateFault_open {s : State} {r : Reg} (hu : s.usel = true) (hd : r = .data ∨ r = .ier → s.dlab = false) :
    s.gateFault r = none := by
  unfold State.gateFault
  simp only [hu, Bool.not_true, Bool.and_false, Bool.false_eq_true, if_false]
  cases r <;> simp_all

/-- Selected with the mode flag clear: every register answers. -/
theorem gateFault_clear {s : State} {r : Reg} (hu : s.usel = true) (hd : s.blk.lcr.getLsbD 7 = false) :
    s.gateFault r = none := gateFault_open hu fun _ => hd

/-- Selected: a register the mode flag does not gate answers. -/
theorem gateFault_other {s : State} {r : Reg} (hu : s.usel = true) (h1 : r ≠ .data) (h2 : r ≠ .ier) :
    s.gateFault r = none := gateFault_open hu fun h => by simp_all

/-- The gate raises F1 or F6 only. -/
theorem gateFault_cases (s : State) (r : Reg) :
    s.gateFault r = none ∨ s.gateFault r = some .f1 ∨ s.gateFault r = some .f6 := by
  unfold State.gateFault
  split
  · simp
  · split <;> simp

/-! ### `BusRead` and `BusWrite` -/

theorem busRead_open {r : Reg} {s : State} (view : State → Word × State) (h : s.gateFault r = none) :
    busRead r view s = .next ((view s).2.endRead (s.cfg.map.off r) (view s).1) := by simp [busRead, h]

theorem busRead_fault {r : Reg} {s : State} {c : FaultCode} (view : State → Word × State)
    (h : s.gateFault r = some c) : busRead r view s = .next (faultRead c (s.cfg.map.off r) s) := by
  simp [busRead, h]

theorem busWrite_open {r : Reg} {s : State} (view : Word → State → State) (v : Word) (h : s.gateFault r = none) :
    busWrite r view v s = .next ((view v s).endWrite (s.cfg.map.off r) v) := by simp [busWrite, h]

theorem busWrite_fault {r : Reg} {s : State} {c : FaultCode} (view : Word → State → State) (v : Word)
    (h : s.gateFault r = some c) : busWrite r view v s = .next (faultWrite c (s.cfg.map.off r) v s) := by
  simp [busWrite, h]

/-- A faulting read, field by field: it changes only the record, `acc` and the count of draws. -/
theorem faultRead_eq (c : FaultCode) (off : Byte) (s : State) : faultRead c off s = { s with
    fault := s.fault.add c, acc := some (Config.draw 32 s.draws), draws := s.draws + 1,
    hist := s.hist ++ [.fault c, .bus false off (Config.draw 32 s.draws)] } := by
  simp [faultRead, State.endRead, State.raise, State.addFault, State.log, State.drew, State.setAcc, State.free]

/-- A faulting write, field by field: it changes only the record. -/
theorem faultWrite_eq (c : FaultCode) (off : Byte) (v : Word) (s : State) : faultWrite c off v s = { s with
    fault := s.fault.add c, hist := s.hist ++ [.fault c, .bus true off v] } := by
  simp [faultWrite, State.endWrite, State.raise, State.addFault, State.log]

theorem refuseIf_true (c : RefuseCode) (s : State) : s.refuseIf true c = s.refuse c := rfl

theorem refuseIf_false (c : RefuseCode) (s : State) : s.refuseIf false c = s := rfl

theorem refuseIf_cases (b : Bool) (c : RefuseCode) (s : State) :
    s.refuseIf b c = s ∨ s.refuseIf b c = s.refuse c := by
  cases b
  · exact .inl rfl
  · exact .inr rfl

/-! ### `exec` as one access of a register -/

/-- The read-view of each register. -/
def readFn : Reg → State → Word × State
  | .sel0   => readSel 0
  | .sel1   => readSel 1
  | .data   => readRbr
  | .ier    => readStored Block.ier
  | .iirFcr => readIir
  | .lcr    => readStored Block.lcr
  | .mcr    => readStored Block.mcr
  | .lsr    => readLsr
  | .msr    => readMsr
  | .scr    => readStored Block.scr
  | .cntl   => readStored Block.cntl
  | .stat   => readStat
  | .baud   => readStored Block.baud

/-- The write-view of each register. -/
def writeFn : Reg → Word → State → State
  | .sel0   => writeSel 0
  | .sel1   => writeSel 1
  | .data   => writeThr
  | .ier    => writeIer
  | .iirFcr => writeFcr
  | .lcr    => writeLcr
  | .mcr    => writeMcr
  | .lsr    => ignoreWrite
  | .msr    => ignoreWrite
  | .scr    => writeScr
  | .cntl   => writeCntl
  | .stat   => ignoreWrite
  | .baud   => writeBaud

/-- Every operation is one read or one write of the register it addresses. -/
theorem exec_eq (i : Instr) (s : State) : exec i s =
    if i.we then busWrite i.reg (writeFn i.reg) i.wdata s else busRead i.reg (readFn i.reg) s := by
  cases i <;> rfl

end Sys2Proof.Machine
end

