-- ==== Sys2Proof/Laws/Effects.lean ====
section
/-! SUPPORT. What a step can do to the block, the line and the history, said once: `Effect`, and one lemma per layer
(the views, `exec`, the transaction, the host's operation, the turn, the step) that says nothing else happens. -/

namespace Sys2Proof.Machine

/-- A block whose stored registers may differ, and nothing else. -/
def Block.SameButRegs (b b' : Block) : Prop :=
  b' = { b with
    selw := b'.selw, ier := b'.ier, lcr := b'.lcr, mcr := b'.mcr, scr := b'.scr, cntl := b'.cntl, baud := b'.baud }

/-- The ways a step that appends the events `new` can change the block and the line. -/
inductive Effect (s s' : State) (new : List Event) : Prop where
  | quiet (blk : s'.blk = s.blk) (line : s'.lineOut = s.lineOut)
  | store (off : Byte) (v : Word) (ev : Event.bus true off v ∈ new)
      (blk : Block.SameButRegs s.blk s'.blk)
      (line : s'.lineOut = s.lineOut)
  | pop (c : Byte) (rest : List Byte) (v : Word) (ev : Event.bus false s.cfg.map.offData v ∈ new)
      (had : s.blk.rxq = c :: rest) (blk : s'.blk = { s.blk with rxq := rest }) (line : s'.lineOut = s.lineOut)
  | push (v : Word) (ev : Event.bus true s.cfg.map.offData v ∈ new) (room : s.blk.txq.length ≠ s.cfg.txDepth)
      (blk : s'.blk = { s.blk with txq := s.blk.txq ++ [truncTo 8 v] }) (line : s'.lineOut = s.lineOut)
  | clearErrors (blk : s'.blk = { s.blk with oe := false, pe := false, fe := false, bi := false })
      (line : s'.lineOut = s.lineOut)
  | fifoClr (rx tx : Bool) (ev : Event.fifoClr rx tx ∈ new)
      (blk : s'.blk = { s.blk with
        rxq := if rx = true then [] else s.blk.rxq, txq := if tx = true then [] else s.blk.txq })
      (line : s'.lineOut = s.lineOut)
  | load (c : Byte) (rest : List Byte) (hadT : s.blk.tsr = none) (had : s.blk.txq = c :: rest)
      (blk : s'.blk = { s.blk with txq := rest, tsr := some c }) (line : s'.lineOut = s.lineOut)
  | emit (c : Byte) (had : s.blk.tsr = some c) (ev : Event.txEmit (s.frameOf c) ∈ new)
      (blk : s'.blk = { s.blk with tsr := none }) (line : s'.lineOut = s.lineOut ++ [s.frameOf c])
  | arrive (m : Byte)
      (q : (s.blk.rxq.length < s.cfg.rxDepth ∧ s'.blk.rxq = s.blk.rxq ++ [m]) ∨ s'.blk.rxq = s.blk.rxq ∨
        (s.cfg.rxDepth ≤ s.blk.rxq.length ∧ s'.blk.rxq = s.blk.rxq.dropLast ++ [m]))
      (blk : s'.blk = { s.blk with
        rxq := s'.blk.rxq, oe := s'.blk.oe, pe := s'.blk.pe, fe := s'.blk.fe, bi := s'.blk.bi })
      (line : s'.lineOut = s.lineOut)
  | reset (ev : Event.reset ∈ new) (blk : s'.blk = s.cfg.rst) (line : s'.lineOut = s.lineOut)

/-- An effect is about the block, the line and the configuration only. -/
theorem Effect.congr {s s' t t' : State} {new more : List Event} (h : Effect s s' new)
    (hb : t.blk = s.blk) (hl : t.lineOut = s.lineOut) (hc : t.cfg = s.cfg)
    (hb' : t'.blk = s'.blk) (hl' : t'.lineOut = s'.lineOut) (hn : ∀ e ∈ new, e ∈ more) : Effect t t' more := by
  have hf : ∀ c, t.frameOf c = s.frameOf c := fun c => by simp [State.frameOf, State.wls, hb]
  cases h with
  | quiet b l => exact .quiet (by rw [hb', hb, b]) (by rw [hl', hl, l])
  | store off v ev b l => exact .store off v (hn _ ev) (by rw [hb', hb]; exact b) (by rw [hl', hl, l])
  | pop c rest v ev had b l =>
    exact .pop c rest v (by rw [hc]; exact hn _ ev) (by rw [hb, had]) (by rw [hb', hb, b]) (by rw [hl', hl, l])
  | push v ev room b l =>
    exact .push v (by rw [hc]; exact hn _ ev) (by rw [hb, hc]; exact room) (by rw [hb', hb, b]) (by rw [hl', hl, l])
  | clearErrors b l => exact .clearErrors (by rw [hb', hb, b]) (by rw [hl', hl, l])
  | fifoClr rx tx ev b l => exact .fifoClr rx tx (hn _ ev) (by rw [hb', hb, b]) (by rw [hl', hl, l])
  | load c rest ht had b l =>
    exact .load c rest (by rw [hb, ht]) (by rw [hb, had]) (by rw [hb', hb, b]) (by rw [hl', hl, l])
  | emit c had ev b l =>
    exact .emit c (by rw [hb, had]) (by rw [hf]; exact hn _ ev) (by rw [hb', hb, b]) (by rw [hl', hl, l, hf])
  | arrive m q b l =>
    exact .arrive m (by rw [hb, hb', hc]; exact q) (by rw [hb', hb]; exact b) (by rw [hl', hl, l])
  | reset ev b l => exact .reset (hn _ ev) (by rw [hb', hc, b]) (by rw [hl', hl, l])

/-- What no step of any agent touches, or only lets grow. -/
structure Grows (s s' : State) (new : List Event) : Prop where
  cfg : s'.cfg = s.cfg
  script : s'.script = s.script
  hist : s'.hist = s.hist ++ new
  fault : ∀ c, s.fault.has c = true → s'.fault.has c = true
  refused : ∀ c, s.refused.has c = true → s'.refused.has c = true
  line : s.lineOut <+: s'.lineOut
  out : s.out <+: s'.out
  claimed : s.claimed = true → s'.claimed = true
  draws : s.draws ≤ s'.draws

theorem Grows.refl (s : State) : Grows s s [] where
  cfg := rfl
  script := rfl
  hist := (List.append_nil _).symm
  fault := fun _ h => h
  refused := fun _ h => h
  line := List.prefix_refl _
  out := List.prefix_refl _
  claimed := id
  draws := le_refl _

theorem Grows.trans {a b c : State} {n m : List Event} (h : Grows a b n) (k : Grows b c m) :
    Grows a c (n ++ m) where
  cfg := k.cfg.trans h.cfg
  script := k.script.trans h.script
  hist := by rw [k.hist, h.hist, List.append_assoc]
  fault := fun x hx => k.fault x (h.fault x hx)
  refused := fun x hx => k.refused x (h.refused x hx)
  line := h.line.trans k.line
  out := h.out.trans k.out
  claimed := fun x => k.claimed (h.claimed x)
  draws := le_trans h.draws k.draws

/-! ### The named updates -/

theorem grows_log (e : Event) (s : State) : Grows s (s.log e) [e] :=
  { Grows.refl s with hist := rfl }

theorem grows_raise (c : FaultCode) (s : State) : Grows s (s.raise c) [.fault c] :=
  { Grows.refl s with hist := rfl, fault := fun _ h => FaultSet.has_of_add h }

theorem grows_refuse (c : RefuseCode) (s : State) : Grows s (s.refuse c) [.refuse c] :=
  { Grows.refl s with hist := rfl, refused := fun _ h => RefuseSet.has_of_add h }

theorem grows_drew (s : State) : Grows s s.drew [] :=
  { Grows.refl s with draws := Nat.le_succ _ }

theorem grows_setBlk (b : Block) (s : State) : Grows s (s.setBlk b) [] := { Grows.refl s with }

theorem grows_advance (s : State) : Grows s s.advance [] := { Grows.refl s with }

theorem grows_endRead (off : Byte) (v : Word) (s : State) : Grows s (s.endRead off v) [.bus false off v] :=
  { Grows.refl s with hist := rfl }

theorem grows_endWrite (off : Byte) (v : Word) (s : State) : Grows s (s.endWrite off v) [.bus true off v] :=
  { Grows.refl s with hist := rfl }

theorem grows_takeTurn (s : State) : Grows s s.takeTurn [] := by
  unfold State.takeTurn
  split
  · exact { Grows.refl s with }
  · exact grows_drew s

theorem takeTurn_blk (s : State) : s.takeTurn.blk = s.blk := by unfold State.takeTurn; split <;> rfl

theorem takeTurn_lineOut (s : State) : s.takeTurn.lineOut = s.lineOut := by unfold State.takeTurn; split <;> rfl

theorem takeTurn_fault (s : State) : s.takeTurn.fault = s.fault := by unfold State.takeTurn; split <;> rfl

theorem takeTurn_hpc (s : State) : s.takeTurn.hpc = s.hpc := by unfold State.takeTurn; split <;> rfl

theorem takeTurn_acc (s : State) : s.takeTurn.acc = s.acc := by unfold State.takeTurn; split <;> rfl

theorem grows_checkClaim (s : State) : ∃ new, Grows s s.checkClaim new ∧ ∀ e ∈ new, e = .fault .f8 := by
  unfold State.checkClaim
  split
  · exact ⟨[], Grows.refl s, by simp⟩
  · exact ⟨_, grows_raise .f8 s, by simp⟩

theorem checkClaim_blk (s : State) : s.checkClaim.blk = s.blk := by unfold State.checkClaim; split <;> rfl

theorem checkClaim_lineOut (s : State) : s.checkClaim.lineOut = s.lineOut := by
  unfold State.checkClaim; split <;> rfl

/-! ### The views -/

/-- Everything the read-view of a register can do. -/
theorem readFn_cases (r : Reg) (s : State) :
    (readFn r s).2 = s ∨ (readFn r s).2 = s.drew ∨ (readFn r s).2 = s.drew.drew.drew ∨
    (r = .data ∧ s.blk.rxq = [] ∧ (readFn r s).2 = (s.raise .f5).drew) ∨
    (r = .data ∧ ∃ c rest, s.blk.rxq = c :: rest ∧ (readFn r s).2 = s.setBlk { s.blk with rxq := rest }) ∨
    (r = .lsr ∧ (readFn r s).2 = s.setBlk { s.blk with oe := false, pe := false, fe := false, bi := false }) := by
  cases r with
  | sel0 => by_cases h : s.cfg.selWord = 0 <;> simp [readFn, readSel, readSelw, readSelc, readStored, h]
  | sel1 => by_cases h : s.cfg.selWord = 1 <;> simp [readFn, readSel, readSelw, readSelc, readStored, h]
  | data => cases h : s.blk.rxq <;> simp [readFn, readRbr, h]
  | lsr => cases h : s.cfg.lsrCor <;> simp [readFn, readLsr, h]
  | stat => exact .inr (.inr (.inl rfl))
  | msr => exact .inr (.inl rfl)
  | ier => exact .inl rfl
  | iirFcr => exact .inl rfl
  | lcr => exact .inl rfl
  | mcr => exact .inl rfl
  | scr => exact .inl rfl
  | cntl => exact .inl rfl
  | baud => exact .inl rfl

/-- Everything the write-view of a register can do. -/
theorem writeFn_cases (r : Reg) (v : Word) (s : State) :
    writeFn r v s = s ∨
    (∃ b, Block.SameButRegs s.blk b ∧
      (writeFn r v s = s.setBlk b ∨ ∃ c, writeFn r v s = (s.setBlk b).refuse c)) ∨
    (r = .data ∧ s.blk.txq.length = s.cfg.txDepth ∧ writeFn r v s = s.raise .f4) ∨
    (r = .data ∧ s.blk.txq.length ≠ s.cfg.txDepth ∧
      writeFn r v s = s.setBlk { s.blk with txq := s.blk.txq ++ [truncTo 8 v] }) ∨
    (∃ rx tx, writeFn r v s = (s.setBlk { s.blk with
      rxq := if rx = true then [] else s.blk.rxq, txq := if tx = true then [] else s.blk.txq }).log
        (.fifoClr rx tx)) := by
  cases r with
  | sel0 =>
    by_cases h : s.cfg.selWord = 0
    · exact .inr (.inl ⟨{ s.blk with selw := v }, rfl, .inl (by simp [writeFn, writeSel, writeSelw, h])⟩)
    · exact .inl (by simp [writeFn, writeSel, ignoreWrite, h])
  | sel1 =>
    by_cases h : s.cfg.selWord = 1
    · exact .inr (.inl ⟨{ s.blk with selw := v }, rfl, .inl (by simp [writeFn, writeSel, writeSelw, h])⟩)
    · exact .inl (by simp [writeFn, writeSel, ignoreWrite, h])
  | data => by_cases h : s.blk.txq.length = s.cfg.txDepth <;> simp [writeFn, writeThr, h]
  | ier =>
    refine .inr (.inl ⟨{ s.blk with ier := truncTo 4 v }, rfl, ?_⟩)
    exact (refuseIf_cases _ _ _).imp id fun h => ⟨_, h⟩
  | iirFcr =>
    by_cases h : (v.getLsbD 1 || v.getLsbD 2) = true
    · exact .inr (.inr (.inr (.inr ⟨v.getLsbD 1, v.getLsbD 2, if_pos h⟩)))
    · exact .inl (if_neg h)
  | lcr =>
    refine .inr (.inl ⟨{ s.blk with lcr := truncTo 8 v }, rfl, ?_⟩)
    exact (refuseIf_cases _ _ _).imp id fun h => ⟨_, h⟩
  | mcr =>
    refine .inr (.inl ⟨{ s.blk with mcr := truncTo 5 v }, rfl, ?_⟩)
    exact (refuseIf_cases _ _ _).imp id fun h => ⟨_, h⟩
  | cntl =>
    refine .inr (.inl ⟨{ s.blk with cntl := truncTo 8 v }, rfl, ?_⟩)
    exact (refuseIf_cases _ _ _).imp id fun h => ⟨_, h⟩
  | scr => exact .inr (.inl ⟨{ s.blk with scr := truncTo 8 v }, rfl, .inl rfl⟩)
  | baud => exact .inr (.inl ⟨{ s.blk with baud := truncTo 16 v }, rfl, .inl rfl⟩)
  | lsr => exact .inl rfl
  | msr => exact .inl rfl
  | stat => exact .inl rfl

/-! ### `exec` and the transaction -/

/-- What an access of the block leaves alone beyond what every step does: the host's counter, output and claim, the
schedule, the line. -/
structure Keeps (s s' : State) : Prop where
  hpc : s'.hpc = s.hpc
  out : s'.out = s.out
  claimed : s'.claimed = s.claimed
  turns : s'.turns = s.turns

/-- One access of the block: `new` is what it appends to the history. -/
structure Access (s s' : State) (new : List Event) : Prop where
  grows : Grows s s' new
  keeps : Keeps s s'
  effect : Effect s s' new

theorem faultRead_access (c : FaultCode) (off : Byte) (s : State) :
    Access s (faultRead c off s) [.fault c, .bus false off (Config.draw 32 s.draws)] where
  grows := (grows_raise c s).trans ((grows_drew _).trans (grows_endRead off _ _))
  keeps := ⟨rfl, rfl, rfl, rfl⟩
  effect := .quiet rfl rfl

theorem faultWrite_access (c : FaultCode) (off : Byte) (v : Word) (s : State) :
    Access s (faultWrite c off v s) [.fault c, .bus true off v] where
  grows := (grows_raise c s).trans (grows_endWrite off v _)
  keeps := ⟨rfl, rfl, rfl, rfl⟩
  effect := .quiet rfl rfl

theorem narrowRead_access (off : Byte) (n : Nat) (s : State) :
    Access s (narrowRead off n s) [.fault .f3, .bus false off (zext (Config.draw (8 * n) s.draws))] where
  grows := (grows_raise .f3 s).trans ((grows_drew _).trans (grows_endRead off _ _))
  keeps := ⟨rfl, rfl, rfl, rfl⟩
  effect := .quiet rfl rfl

/-- A read of a register that answers. -/
theorem readFn_access (r : Reg) (s : State) :
    ∃ new, Access s ((readFn r s).2.endRead (s.cfg.map.off r) (readFn r s).1) new := by
  rcases readFn_cases r s with h | h | h | ⟨-, -, h⟩ | ⟨rfl, c, rest, had, h⟩ | ⟨-, h⟩ <;> rw [h]
  · exact ⟨_, grows_endRead _ _ _, ⟨rfl, rfl, rfl, rfl⟩, .quiet rfl rfl⟩
  · exact ⟨_, (grows_drew _).trans (grows_endRead _ _ _), ⟨rfl, rfl, rfl, rfl⟩, .quiet rfl rfl⟩
  · exact ⟨_, (grows_drew _).trans ((grows_drew _).trans ((grows_drew _).trans (grows_endRead _ _ _))),
      ⟨rfl, rfl, rfl, rfl⟩, .quiet rfl rfl⟩
  · exact ⟨_, (grows_raise _ _).trans ((grows_drew _).trans (grows_endRead _ _ _)), ⟨rfl, rfl, rfl, rfl⟩,
      .quiet rfl rfl⟩
  · exact ⟨_, (grows_setBlk _ _).trans (grows_endRead _ _ _), ⟨rfl, rfl, rfl, rfl⟩,
      .pop c rest _ (List.mem_singleton.mpr rfl) had rfl rfl⟩
  · exact ⟨_, (grows_setBlk _ _).trans (grows_endRead _ _ _), ⟨rfl, rfl, rfl, rfl⟩, .clearErrors rfl rfl⟩

/-- A write of a register that answers. -/
theorem writeFn_access (r : Reg) (v : Word) (s : State) :
    ∃ new, Access s ((writeFn r v s).endWrite (s.cfg.map.off r) v) new := by
  rcases writeFn_cases r v s with h | ⟨b, hb, h | ⟨c, h⟩⟩ | ⟨-, -, h⟩ | ⟨rfl, room, h⟩ | ⟨rx, tx, h⟩ <;> rw [h]
  · exact ⟨_, grows_endWrite _ _ _, ⟨rfl, rfl, rfl, rfl⟩, .quiet rfl rfl⟩
  · exact ⟨_, (grows_setBlk _ _).trans (grows_endWrite _ _ _), ⟨rfl, rfl, rfl, rfl⟩,
      .store (s.cfg.map.off r) v (by simp) hb rfl⟩
  · exact ⟨_, (grows_setBlk _ _).trans ((grows_refuse _ _).trans (grows_endWrite _ _ _)), ⟨rfl, rfl, rfl, rfl⟩,
      .store (s.cfg.map.off r) v (by simp) hb rfl⟩
  · exact ⟨_, (grows_raise _ _).trans (grows_endWrite _ _ _), ⟨rfl, rfl, rfl, rfl⟩, .quiet rfl rfl⟩
  · exact ⟨_, (grows_setBlk _ _).trans (grows_endWrite _ _ _), ⟨rfl, rfl, rfl, rfl⟩,
      .push v (List.mem_singleton.mpr rfl) room rfl rfl⟩
  · exact ⟨_, (grows_setBlk _ _).trans ((grows_log _ _).trans (grows_endWrite _ _ _)), ⟨rfl, rfl, rfl, rfl⟩,
      .fifoClr rx tx (by simp) rfl rfl⟩

/-- Every operation completes, and is one access of the block (R71). -/
theorem exec_access (i : Instr) (s : State) : ∃ s' new, exec i s = .next s' ∧ Access s s' new := by
  rw [exec_eq]
  cases hw : i.we
  · cases hg : s.gateFault i.reg with
    | some c => exact ⟨_, _, busRead_fault _ hg, faultRead_access c _ s⟩
    | none   => exact ⟨_, (readFn_access i.reg s).choose, busRead_open _ hg, (readFn_access i.reg s).choose_spec⟩
  · cases hg : s.gateFault i.reg with
    | some c => exact ⟨_, _, busWrite_fault _ _ hg, faultWrite_access c _ _ s⟩
    | none   =>
      exact ⟨_, (writeFn_access i.reg i.wdata s).choose, busWrite_open _ _ hg,
        (writeFn_access i.reg i.wdata s).choose_spec⟩

/-- A write leaves the host's register alone. -/
theorem exec_write_acc {i : Instr} {s s' : State} (hw : i.we = true) (h : exec i s = .next s') : s'.acc = s.acc := by
  rw [exec_eq, hw, if_pos rfl] at h
  cases hg : s.gateFault i.reg with
  | some c => rw [busWrite_fault _ _ hg] at h; cases h; rfl
  | none =>
    rw [busWrite_open _ _ hg] at h
    cases h
    show (writeFn i.reg i.wdata s).acc = s.acc
    rcases writeFn_cases i.reg i.wdata s with h | ⟨b, -, h | ⟨c, h⟩⟩ | ⟨-, -, h⟩ | ⟨-, -, h⟩ | ⟨rx, tx, h⟩ <;>
      rw [h] <;> rfl

/-- Every transaction completes, and is one access of the block. -/
theorem busTxn_access (t : Txn) (s : State) : ∃ s' new, busTxn t s = .next s' ∧ Access s s' new := by
  unfold busTxn badTxn
  split
  · exact exec_access _ s
  · split
    · exact ⟨_, _, rfl, faultWrite_access _ _ _ s⟩
    · exact ⟨_, _, rfl, faultRead_access _ _ s⟩

/-! ### The host's operation, the turn, the step -/

theorem hostClaim_spec (s : State) : ∃ new, Grows s (hostClaim s) new ∧ Effect s (hostClaim s) new := by
  unfold hostClaim
  split
  · exact ⟨_, (grows_raise _ _).trans (grows_advance _), .quiet rfl rfl⟩
  · exact ⟨[], { Grows.refl s with claimed := fun _ => rfl }, .quiet rfl rfl⟩

theorem accUnwritten_spec (s : State) : ∃ new, Grows s (accUnwritten s) new ∧ Effect s (accUnwritten s) new :=
  ⟨_, (grows_raise _ _).trans (grows_advance _), .quiet rfl rfl⟩

theorem hostBrz_spec (mask : Word) (t : Nat) (s : State) :
    ∃ new, Grows s (hostBrz mask t s) new ∧ Effect s (hostBrz mask t s) new := by
  unfold hostBrz
  split
  · exact accUnwritten_spec s
  · split
    · exact ⟨[], { Grows.refl s with }, .quiet rfl rfl⟩
    · exact ⟨[], grows_advance s, .quiet rfl rfl⟩

theorem hostRet8_spec (s : State) : ∃ new, Grows s (hostRet8 s) new ∧ Effect s (hostRet8 s) new := by
  unfold hostRet8
  split
  · exact accUnwritten_spec s
  · exact ⟨[], { Grows.refl s with out := ⟨_, rfl⟩ }, .quiet rfl rfl⟩

/-- An access after the ownership check, and then the script counter moves on. -/
theorem txn_spec {t : Txn} {s : State} : ∃ s' new, onNext State.advance (busTxn t s.checkClaim) = .next s' ∧
    Grows s s' new ∧ Effect s s' new := by
  obtain ⟨n0, g0, -⟩ := grows_checkClaim s
  obtain ⟨s1, n1, h, a⟩ := busTxn_access t s.checkClaim
  refine ⟨s1.advance, _, by rw [h]; rfl, g0.trans (a.grows.trans (grows_advance s1)), ?_⟩
  exact a.effect.congr (checkClaim_blk s).symm (checkClaim_lineOut s).symm g0.cfg.symm rfl rfl
    (fun e he => by simp [he])

/-- Every operation of the host that answers a next state. -/
theorem hostOp_spec {op : HostOp} {s s' : State} (h : hostOp op s = .next s') :
    ∃ new, Grows s s' new ∧ Effect s s' new := by
  have viaTxn : ∀ t, onNext State.advance (busTxn t s.checkClaim) = .next s' → ∃ new, Grows s s' new ∧ Effect s s' new :=
    fun t ht => by
      obtain ⟨u, new, hu, g, e⟩ := txn_spec (t := t) (s := s)
      rw [hu] at ht; cases ht; exact ⟨new, g, e⟩
  have viaBus : ∀ t, onNext State.advance (busTxn t s) = .next s' → ∃ new, Grows s s' new ∧ Effect s s' new :=
    fun t ht => by
      obtain ⟨u, new, hu, a⟩ := busTxn_access t s
      rw [hu] at ht; cases ht
      exact ⟨_, a.grows.trans (grows_advance u), a.effect.congr rfl rfl rfl rfl rfl (by simp)⟩
  cases op with
  | claim => cases h; exact hostClaim_spec s
  | rd r => exact viaTxn _ h
  | wr w imm => exact viaTxn _ h
  | wrm w clr set =>
    replace h : hostWrm w clr set s = .next s' := h
    unfold hostWrm at h
    split at h
    · cases h
      obtain ⟨n0, g0, -⟩ := grows_checkClaim s
      exact ⟨_, g0.trans ((grows_raise _ _).trans (grows_advance _)),
        .quiet (checkClaim_blk s) (checkClaim_lineOut s)⟩
    · exact viaTxn _ h
  | brz mask t => cases h; exact hostBrz_spec mask t s
  | ret8 => cases h; exact hostRet8_spec s
  | halt => cases h; exact ⟨[], Grows.refl s, .quiet rfl rfl⟩
  | refuseDivisor => cases h; exact ⟨_, (grows_refuse _ _).trans (grows_advance _), .quiet rfl rfl⟩
  | bus t => exact viaBus t h
  | memRead a n =>
    replace h : onNext State.advance (memRead a n s) = .next s' := h
    unfold memRead at h
    split at h
    · cases h
    · split at h
      · exact viaBus _ h
      · cases h
        have a := narrowRead_access (offsetOf s.cfg a) n s
        exact ⟨_, a.grows.trans (grows_advance _), .quiet rfl rfl⟩
  | memWrite a n v =>
    replace h : onNext State.advance (memWrite a n v s) = .next s' := h
    unfold memWrite at h
    split at h
    · cases h
    · split at h
      · exact viaBus _ h
      · cases h
        have a := faultWrite_access .f3 (offsetOf s.cfg a) (BitVec.ofNat 32 (v % 2 ^ (8 * n))) s
        exact ⟨_, a.grows.trans (grows_advance _), .quiet rfl rfl⟩

/-- The host's turn. -/
theorem hostStep_spec {s s' : State} (h : hostStep s = .next s') : ∃ new, Grows s s' new ∧ Effect s s' new := by
  unfold hostStep at h
  split at h
  · cases h; exact ⟨[], Grows.refl s, .quiet rfl rfl⟩
  · exact hostOp_spec h

/-- `TX_LOAD`. -/
theorem txLoad_spec (s : State) : ∃ new, Grows s (txLoad s) new ∧ Effect s (txLoad s) new := by
  unfold txLoad
  split
  · next c rest _ ht hq =>
    exact ⟨_, (grows_setBlk _ _).trans (grows_log _ _), .load c rest ht hq rfl rfl⟩
  · exact ⟨[], Grows.refl s, .quiet rfl rfl⟩

/-- `TX_EMIT`. -/
theorem txEmit_spec (s : State) : ∃ new, Grows s (txEmit s) new ∧ Effect s (txEmit s) new := by
  unfold txEmit
  split
  · next c _ ht =>
    exact ⟨[.txEmit (s.frameOf c)], { Grows.refl s with hist := rfl, line := ⟨_, rfl⟩ },
      .emit c ht (by simp) rfl rfl⟩
  · exact ⟨[], Grows.refl s, .quiet rfl rfl⟩

/-- `RX_ARRIVE`. -/
theorem rxArrive_spec (c : Byte) (tpe tfe tbi rp : Bool) (s : State) :
    ∃ new, Grows s (rxArrive c tpe tfe tbi rp s) new ∧ Effect s (rxArrive c tpe tfe tbi rp s) new := by
  unfold rxArrive
  split
  · exact ⟨_, grows_log _ _, .quiet rfl rfl⟩
  · split
    · next h =>
      exact ⟨_, (grows_setBlk _ _).trans (grows_log _ _), .arrive (c &&& wlmask s.wls) (.inl ⟨h, rfl⟩) rfl rfl⟩
    · next h =>
      split
      · exact ⟨_, (grows_setBlk _ _).trans (grows_log _ _),
          .arrive (c &&& wlmask s.wls) (.inr (.inr ⟨not_lt.mp h, rfl⟩)) rfl rfl⟩
      · exact ⟨_, (grows_setBlk _ _).trans (grows_log _ _), .arrive (c &&& wlmask s.wls) (.inr (.inl rfl)) rfl rfl⟩

/-- The turn of any agent. -/
theorem runTurn_spec {t : Turn} {s s' : State} (h : runTurn t s = .next s') :
    ∃ new, Grows s s' new ∧ Effect s s' new := by
  cases t with
  | host => exact hostStep_spec h
  | txLoad => cases h; exact txLoad_spec s
  | txEmit => cases h; exact txEmit_spec s
  | rxArrive c tpe tfe tbi rp => cases h; exact rxArrive_spec c tpe tfe tbi rp s
  | reset => cases h; exact ⟨_, (grows_setBlk _ _).trans (grows_log _ _), .reset (by simp) rfl rfl⟩

/-- Everything a step can do. -/
theorem step_spec {s s' : State} (h : step s = .next s') : ∃ new, Grows s s' new ∧ Effect s s' new := by
  obtain ⟨new, g, e⟩ := runTurn_spec h
  have t := grows_takeTurn s
  exact ⟨_, t.trans g, e.congr (takeTurn_blk s).symm (takeTurn_lineOut s).symm t.cfg.symm rfl rfl (fun _ he => he)⟩

end Sys2Proof.Machine
end

