-- ==== Sys2Proof/Laws/Flags.lean ====
section
/-! SUPPORT. The status words, field by field: what each bit of line status and auxiliary status says. -/

namespace Sys2Proof.Machine

/-- A written word cut to `k` bits is its low field. -/
theorem truncTo_eq (k : Nat) (v : Word) : truncTo k v = v.extractLsb' 0 k := by
  apply BitVec.eq_of_getLsbD_eq
  intro i hi
  simp [truncTo, hi]

/-- The eight bits of a zero-extended byte laid out as line status is. -/
theorem lsrBits : ∀ t h b f p o d : Bool, ∀ v : Word,
    v = zext (0#1 ++ BitVec.ofBool t ++ BitVec.ofBool h ++ BitVec.ofBool b ++ BitVec.ofBool f ++ BitVec.ofBool p
      ++ BitVec.ofBool o ++ BitVec.ofBool d) →
    v.getLsbD 0 = d ∧ v.getLsbD 1 = o ∧ v.getLsbD 2 = p ∧ v.getLsbD 3 = f ∧ v.getLsbD 4 = b ∧ v.getLsbD 5 = h ∧
      v.getLsbD 6 = t ∧ v >>> 7 = 0#32 := by
  intro t h b f p o d v rfl
  revert t h b f p o d
  decide

/-- The line-status word (R222, R114). -/
theorem lsrWord_bits (s : State) :
    s.lsrWord.getLsbD 0 = s.dr ∧ s.lsrWord.getLsbD 1 = s.blk.oe ∧ s.lsrWord.getLsbD 2 = s.blk.pe ∧
    s.lsrWord.getLsbD 3 = s.blk.fe ∧ s.lsrWord.getLsbD 4 = s.blk.bi ∧ s.lsrWord.getLsbD 5 = s.thre ∧
    s.lsrWord.getLsbD 6 = s.temt ∧ s.lsrWord >>> 7 = 0#32 :=
  lsrBits _ _ _ _ _ _ _ _ rfl

/-- A field of one bit. -/
theorem extract_one {n : Nat} (w : BitVec n) (k : Nat) (a : BitVec 1) (h : w.getLsbD k = a.getLsbD 0) :
    w.extractLsb' k 1 = a := by
  apply BitVec.eq_of_getLsbD_eq
  intro i hi
  obtain rfl : i = 0 := by omega
  simpa [BitVec.getLsbD_extractLsb'] using h

/-- The low ten bits of the auxiliary-status word (R245, R118). -/
theorem statWord_bits (s : State) (a b c : BitVec 1) :
    (s.statWord a b c).getLsbD 0 = s.dr ∧
    (s.statWord a b c).getLsbD 1 = decide (s.blk.txq.length < s.cfg.txDepth) ∧
    (s.statWord a b c).getLsbD 2 = a.getLsbD 0 ∧
    (s.statWord a b c).getLsbD 3 = s.blk.tsr.isNone ∧
    (s.statWord a b c).getLsbD 4 = s.blk.oe ∧
    (s.statWord a b c).getLsbD 5 = (s.blk.txq.length == s.cfg.txDepth) ∧
    (s.statWord a b c).getLsbD 6 = b.getLsbD 0 ∧
    (s.statWord a b c).getLsbD 7 = c.getLsbD 0 ∧
    (s.statWord a b c).getLsbD 8 = s.blk.txq.isEmpty ∧
    (s.statWord a b c).getLsbD 9 = s.temt := by
  unfold State.statWord
  refine ⟨?_, ?_, ?_, ?_, ?_, ?_, ?_, ?_, ?_, ?_⟩
  all_goals
    simp only [BitVec.getLsbD_append, BitVec.getLsbD_ofBool, Nat.reduceLT, Nat.reduceSub, if_true, if_false, decide_true,
      Bool.true_and, zero_lt_one]

/-- A field, bit by bit. -/
theorem extract_of_bits {n : Nat} (w : BitVec n) (k m : Nat) (f : BitVec m)
    (h : ∀ i, i < m → w.getLsbD (k + i) = f.getLsbD i) : w.extractLsb' k m = f := by
  apply BitVec.eq_of_getLsbD_eq
  intro i hi
  simp [hi, h i hi]

/-- The two counts of the auxiliary-status word, and its zero fields (R245, R118). -/
theorem statWord_fields (s : State) (a b c : BitVec 1) :
    (s.statWord a b c).extractLsb' 10 6 = 0#6 ∧
    (s.statWord a b c).extractLsb' 16 4 = BitVec.ofNat 4 (min s.blk.rxq.length 15) ∧
    (s.statWord a b c).extractLsb' 20 4 = 0#4 ∧
    (s.statWord a b c).extractLsb' 24 4 = BitVec.ofNat 4 (min s.blk.txq.length 15) ∧
    (s.statWord a b c).extractLsb' 28 4 = 0#4 := by
  refine ⟨?_, ?_, ?_, ?_, ?_⟩
  all_goals
    apply extract_of_bits
    intro i h
    unfold State.statWord
    simp only [BitVec.getLsbD_append]
    interval_cases i <;>
      simp only [Nat.reduceLT, Nat.reduceSub, Nat.reduceAdd, if_true, if_false, BitVec.getLsbD_zero]

end Sys2Proof.Machine
end

