-- ==== Sys2Proof/Laws/PerInstr.lean ====
section
/-! SUPPORT. Statements made per instruction. `EncodeFields`: for every register map the encoded word of an operation has
the operation's direction, its register's offset and its data, and it sets no other bit; the 41 bits are those three
fields. -/

namespace Sys2Proof.Laws.EncodeFields

/-- The three fields of the word of an operation (R100), and the word they make. -/
def Statement (i : Instr) : Prop :=
  ∀ m : RegMap,
    txnWe (encode m i) = i.we ∧ txnOff (encode m i) = m.off i.reg ∧ txnData (encode m i) = i.wdata ∧
      i = if i.we then writeView i.wdata i.reg else readView i.reg

/-- Every operation's word has its three fields. -/
theorem all (i : Instr) : Statement i := fun m => by
  have e : encode m i = mkTxn i.we (m.off i.reg) i.wdata := rfl
  rw [e]
  exact ⟨txnWe_mkTxn _ _ _, txnOff_mkTxn _ _ _, txnData_mkTxn _ _ _, Instr.eq_view i⟩

theorem rdSel0 : Statement .rdSel0 := all _

theorem wrSel0 (v : Word) : Statement (.wrSel0 v) := all _

theorem rdSel1 : Statement .rdSel1 := all _

theorem wrSel1 (v : Word) : Statement (.wrSel1 v) := all _

theorem rdRbr : Statement .rdRbr := all _

theorem wrThr (v : Word) : Statement (.wrThr v) := all _

theorem rdIer : Statement .rdIer := all _

theorem wrIer (v : Word) : Statement (.wrIer v) := all _

theorem rdIir : Statement .rdIir := all _

theorem wrFcr (v : Word) : Statement (.wrFcr v) := all _

theorem rdLcr : Statement .rdLcr := all _

theorem wrLcr (v : Word) : Statement (.wrLcr v) := all _

theorem rdMcr : Statement .rdMcr := all _

theorem wrMcr (v : Word) : Statement (.wrMcr v) := all _

theorem rdLsr : Statement .rdLsr := all _

theorem wrLsr (v : Word) : Statement (.wrLsr v) := all _

theorem rdMsr : Statement .rdMsr := all _

theorem wrMsr (v : Word) : Statement (.wrMsr v) := all _

theorem rdScr : Statement .rdScr := all _

theorem wrScr (v : Word) : Statement (.wrScr v) := all _

theorem rdCntl : Statement .rdCntl := all _

theorem wrCntl (v : Word) : Statement (.wrCntl v) := all _

theorem rdStat : Statement .rdStat := all _

theorem wrStat (v : Word) : Statement (.wrStat v) := all _

theorem rdBaud : Statement .rdBaud := all _

theorem wrBaud (v : Word) : Statement (.wrBaud v) := all _

end Sys2Proof.Laws.EncodeFields
end

