-- ==== Sys2Proof/Laws/Runs.lean ====
section
/-! SUPPORT. Runs of several steps: what every run leaves or lets grow, and the one induction by which a property that
each step keeps, while certain events do not happen, is kept by a run. And where the step fetches. -/

namespace Sys2Proof.Machine

/-- The events a step or a run has appended. -/
theorem Grows.drop {s s' : State} {new : List Event} (g : Grows s s' new) :
    s'.hist.drop s.hist.length = new := by
  rw [g.hist]
  simp

/-- What no run touches, or only lets grow. -/
theorem run_grows : ∀ (k : Nat) {s s' : State}, Host.Core.run core k s = .next s' → ∃ new, Grows s s' new
  | 0, s, s', h => by cases h; exact ⟨[], Grows.refl s⟩
  | k + 1, s, s', h => by
    simp only [Host.Core.run] at h
    split at h
    · next t ht =>
      obtain ⟨n1, g1, -⟩ := step_spec ht
      obtain ⟨n2, g2⟩ := run_grows k h
      exact ⟨_, g1.trans g2⟩
    · cases h
    · cases h

/-- A property that every step keeps, unless it appends an event that `Q` holds of, is kept by a run that appends no
such event. -/
theorem run_keeps (P : State → Prop) (Q : Event → Prop) (c : Cfg)
    (hs : ∀ s s' new, s.cfg = c → Grows s s' new → Effect s s' new → (∀ e ∈ new, ¬ Q e) → P s → P s') :
    ∀ (k : Nat) {s s' : State}, s.cfg = c → Host.Core.run core k s = .next s' → P s →
      (∀ e ∈ s'.hist.drop s.hist.length, ¬ Q e) → P s'
  | 0, s, s', _, h, hp, _ => by cases h; exact hp
  | k + 1, s, s', hb, h, hp, hq => by
    simp only [Host.Core.run] at h
    split at h
    · next t ht =>
      obtain ⟨n1, g1, e⟩ := step_spec ht
      obtain ⟨n2, g2⟩ := run_grows k h
      rw [(g1.trans g2).drop] at hq
      refine run_keeps P Q c hs k (by rw [g1.cfg, hb]) h (hs _ _ _ hb g1 e (fun e he => hq e (by simp [he])) hp) ?_
      rw [g2.drop]
      exact fun e he => hq e (by simp [he])
    · cases h
    · cases h

/-- The operation placed at an index is the one found there. -/
theorem placeOp_get (op : HostOp) : ∀ (n : Nat) (l : List HostOp), (placeOp op n l)[n]? = some op
  | 0, []          => rfl
  | 0, _ :: _      => rfl
  | n + 1, []      => placeOp_get op n []
  | n + 1, _ :: l  => placeOp_get op n l

/-- The host's turn at an operation of the script. -/
theorem step_host {s : State} {rest : List Turn} {op : HostOp} (ht : s.turns = .host :: rest)
    (ho : s.script[s.hpc]? = some op) : step s = hostOp op { s with turns := rest } := by
  have h1 : s.nextTurn = .host := by simp [State.nextTurn, ht]
  have h2 : s.takeTurn = { s with turns := rest } := by simp [State.takeTurn, ht]
  rw [step, h1, h2]
  show hostStep { s with turns := rest } = _
  simp [hostStep, State.fetch, ho]

/-- The turn of another agent that the schedule names. -/
theorem step_turn {s : State} {t : Turn} {rest : List Turn} (ht : s.turns = t :: rest) :
    step s = runTurn t { s with turns := rest } := by
  simp [step, State.nextTurn, State.takeTurn, ht]

end Sys2Proof.Machine
end

