-- ==== Sys2Proof/Tests/Slice0.lean ====
section
/-! SUPPORT. Tests of the author: ill-formed terms the checks refuse, words written out from the spec, one-step vectors
of spec/95_test_vectors.md, and for every obligation with hypotheses a concrete case that meets them all. -/

open Sys2Proof Sys2Proof.Machine

namespace Sys2Proof.Tests

/-! ### Builders -/

/-- The configuration of the vectors: defaults, with `TX_DEPTH`, `RX_DEPTH`, `THRE_LEVEL` given. -/
def cfg (tx rx lvl : Nat) : Cfg :=
  { base := 0x1000, map := RegMap.std, selWord := 1, selBit := 0, txDepth := tx, rxDepth := rx, threLevel := lvl,
    clockHz := 25000000, targetBaud := 115200, fifoState := 0b11, lsrCor := true, rst := Block.std }

def c8 : Cfg := cfg 8 2 0

/-- The block of the vectors: selected, 8-bit characters, both enables. -/
def blk : Block := { Block.std with selw := 1, lcr := 0x03 }

/-- A state of the vectors: claimed, nothing recorded. -/
def st (b : Block) (c : Cfg) : State := { State.reset with cfg := c, blk := b, claimed := true }

/-- The state in which the host is to perform the first operation of a script. -/
def host (ops : List HostOp) (s : State) : State := { s with script := ops, turns := [.host] }

def bus (t : Nat) (s : State) : Result := busTxn (BitVec.ofNat 41 t) s

/-- What a result's next state is asked. -/
def next? (o : Result) (p : State → Bool) : Bool :=
  match o with
  | .next s => p s
  | _       => false

def hasF (c : FaultCode) (s : State) : Bool := s.fault.has c

/-! ### The checks refuse ill-formed terms -/

theorem test_wf_map_order : { RegMap.std with offSel1 := 0x00 }.wf = false := by decide
theorem test_wf_map_align : { RegMap.std with offBaud := 0x6A }.wf = false := by decide
theorem test_wf_fits_tx : { blk with txq := [1, 2] }.fits (cfg 1 1 0) = false := by decide
theorem test_wf_fits_rx : { blk with rxq := [1, 2] }.fits (cfg 1 1 0) = false := by decide
theorem test_wf_base_align : { c8 with base := 0x1002 }.wf = false := by decide
theorem test_wf_base_range : { c8 with base := 0xFFFFFF04 }.wf = false := by decide
theorem test_wf_cfg_map : { c8 with map := { RegMap.std with offLcr := 0x48 } }.wf = false := by decide
theorem test_wf_txDepth : { c8 with txDepth := 0 }.wf = false := by decide
theorem test_wf_rxDepth : { c8 with rxDepth := 0 }.wf = false := by decide
theorem test_wf_threLevel : { c8 with threLevel := 8 }.wf = false := by decide
theorem test_wf_fifoState : { c8 with fifoState := 0b01 }.wf = false := by decide
theorem test_wf_reset_fits : { c8 with rst := { Block.std with rxq := [1, 2, 3] } }.wf = false := by decide
theorem test_wf_brz : HostOp.wf 3 (.brz 0x20 4) = false := by decide
theorem test_wf_memWrite : HostOp.wf 3 (.memWrite 0x1040 2 0x10000) = false := by decide
theorem test_wf_script : scriptWf [.rd .lsr, .brz 0x20 3] = false := by decide
theorem test_wf_good : c8.wf = true ∧ { c8 with base := 0xFFFFFF00, threLevel := 7 }.wf = true ∧
    scriptWf (initOps c8 27 ++ writeByte 13 0x48 ++ readByte 16 ++ [.halt]) = true := by decide

/-! ### Words written out from the spec's encoding (R100, R133; EN1 to EN7) -/

theorem test_decode_pair :
    decodeTableWord 48 0b0_00000000_00000000000000000000000000000000 = some .rdSel0 ∧
    decodeTableWord 48 0b1_00000000_11111111111111111111111111111111 = some (.wrSel0 0xFFFFFFFF) ∧
    decodeTableWord 48 0b0_00000100_00000000000000000000000000000000 = some .rdSel1 ∧
    decodeTableWord 48 0b1_00000100_00000000000000000000000000000001 = some (.wrSel1 1) := by decide
theorem test_decode_data :
    decodeTableWord 48 0b0_01000000_00000000000000000000000000000000 = some .rdRbr ∧
    decodeTableWord 48 0b1_01000000_00000000000000000000000001000001 = some (.wrThr 0x41) := by decide
theorem test_decode_interrupt :
    decodeTableWord 48 0b0_01000100_00000000000000000000000000000000 = some .rdIer ∧
    decodeTableWord 48 0b1_01000100_00000000000000000000000000000111 = some (.wrIer 7) ∧
    decodeTableWord 48 0b0_01001000_11111111111111111111111111111111 = some .rdIir ∧
    decodeTableWord 48 0b1_01001000_00000000000000000000000000000110 = some (.wrFcr 6) := by decide
theorem test_decode_line :
    decodeTableWord 48 0b0_01001100_00000000000000000000000000000000 = some .rdLcr ∧
    decodeTableWord 48 0b1_01001100_00000000000000000000000000000011 = some (.wrLcr 3) ∧
    decodeTableWord 48 0b0_01010000_00000000000000000000000000000000 = some .rdMcr ∧
    decodeTableWord 48 0b1_01010000_00000000000000000000000000000010 = some (.wrMcr 2) ∧
    decodeTableWord 48 0b0_01010100_00000000000000000000000000000000 = some .rdLsr ∧
    decodeTableWord 48 0b1_01010100_00000000000000000000000000000001 = some (.wrLsr 1) := by decide
theorem test_decode_modem_scratch :
    decodeTableWord 48 0b0_01011000_00000000000000000000000000000000 = some .rdMsr ∧
    decodeTableWord 48 0b1_01011000_00000000000000000000000011111111 = some (.wrMsr 0xFF) ∧
    decodeTableWord 48 0b0_01011100_00000000000000000000000000000000 = some .rdScr ∧
    decodeTableWord 48 0b1_01011100_00000000000000000000000010100101 = some (.wrScr 0xA5) := by decide
theorem test_decode_aux :
    decodeTableWord 48 0b0_01100000_00000000000000000000000000000000 = some .rdCntl ∧
    decodeTableWord 48 0b1_01100000_00000000000000000000000000000011 = some (.wrCntl 3) ∧
    decodeTableWord 48 0b0_01100100_00000000000000000000000000000000 = some .rdStat ∧
    decodeTableWord 48 0b1_01100100_11111111111111111111111111111111 = some (.wrStat 0xFFFFFFFF) ∧
    decodeTableWord 48 0b0_01101000_00000000000000000000000000000000 = some .rdBaud ∧
    decodeTableWord 48 0b1_01101000_00000000000000000000000000011011 = some (.wrBaud 0x1B) := by decide
theorem test_decode_refuses :
    decodeTableWord 48 0x00800000000 = none ∧ decodeTableWord 48 0x04200000000 = none ∧
    decodeTableWord 48 0x20000000000 = none := by decide
theorem test_encode_words :
    encode RegMap.std (.wrThr 0x41) = 0x14000000041#41 ∧ encode RegMap.std .rdLsr = 0x05400000000#41 ∧
    encode RegMap.std (.wrBaud 0x1B) = 0x1680000001B#41 ∧ encode RegMap.std (.wrFcr 6) = 0x14800000006#41 := by decide

/-! ### Operands (EN8 to EN20) -/

theorem test_divisor :
    divisor 25000000 115200 = some 27 ∧ divisor 25000007 115200 = some 27 ∧ divisor 25000000 9600 = some 325 ∧
    divisor 250000000 115200 = some 271 ∧ divisor 1843200 115200 = some 2 ∧ divisor 25000000 3125001 = some 0 ∧
    divisor 25000000 47 = some 66489 ∧ divisor 25000000 0 = none := by decide
theorem test_wlmask : wlmask 0 = 0x1F ∧ wlmask 1 = 0x3F ∧ wlmask 2 = 0x7F ∧ wlmask 3 = 0xFF := by decide
theorem test_fields : setField 0x0000001C 1 0 0b11 = 0x0000001F ∧ getField 0x0000001F 5 3 = 0b011 := by decide
theorem test_lanes : byteLane 0x44332211 0 = 0x11 ∧ byteLane 0x44332211 3 = 0x44 := by decide

/-! ### One transaction (95_test_vectors.md, the vector's id in the name) -/

theorem test_BD1 :
    next? (bus 0x05400000000 (st { blk with selw := 0 } c8)) (fun s => hasF .f1 s && s.acc.isSome) = true := by
  decide
theorem test_BD2 : next? (bus 0x14400000000 (st { blk with selw := 0, ier := 5 } c8))
    (fun s => hasF .f1 s && s.blk.ier == 5) = true := by decide
theorem test_BD5 : next? (bus 0x06C00000000 (st { blk with selw := 0 } c8))
    (fun s => hasF .f2 s && !hasF .f1 s) = true := by decide
theorem test_BD6 : next? (bus 0x04100000000 (st { blk with selw := 0 } c8))
    (fun s => hasF .f3 s && !hasF .f1 s && !hasF .f2 s) = true := by decide
theorem test_BD7 : next? (bus 0x0FC00000000 (st blk c8)) (hasF .f2) = true := by decide
theorem test_BD8 : next? (bus 0x14000000041 (st { blk with lcr := 0x83 } c8))
    (fun s => hasF .f6 s && s.blk.txq == []) = true := by decide
theorem test_BD10 : next? (bus 0x04C00000000 (st { blk with lcr := 0x83 } c8))
    (fun s => s.acc == some 0x83 && s.fault == FaultSet.empty) = true := by decide
theorem test_BD12 : next? (bus 0x1680000001B (st { blk with lcr := 0x83 } c8))
    (fun s => s.blk.baud == 0x1B && s.fault == FaultSet.empty) = true := by decide
theorem test_BD13 : next? (bus 0x04000000000 (st { blk with selw := 0, lcr := 0x80 } c8))
    (fun s => hasF .f1 s && !hasF .f6 s) = true := by decide
theorem test_BD15 : next? (memWrite 0x1040 2 0x0041 (st blk c8)) (fun s => hasF .f3 s && s.blk.txq == []) = true := by
  decide
theorem test_BD16 : next? (bus 0x14000000041 (st { blk with lcr := 0x83 } c8))
    (fun s => s.hist == [.fault .f6, .bus true 0x40 0x41]) = true := by decide
theorem test_outside_window : memRead 0x1100 4 (st blk c8) = .fault .outsideBlock := rfl
theorem test_SP3 : next? (bus 0x104FFFFFFFF (st { blk with selw := 0xFFFFFFFE } c8))
    (fun s => s.blk.selw == 0xFFFFFFFF) = true := by decide
theorem test_SP1 : next? (bus 0x00400000000 (st Block.std c8)) (fun s => s.acc == some 0) = true := by decide
theorem test_SP4 : next? (bus 0x10400000006 (st { blk with selw := 7, txq := [0x41], tsr := some 0x40 } c8))
    (fun s => !s.usel && s.blk.txq == [0x41] && s.blk.tsr == some 0x40) = true := by decide
theorem test_SP7 : next? (bus 0x100FFFFFFFF (st blk c8)) (fun s => s.blk == blk) = true := by decide
theorem test_SP8 : next? (bus 0x10000000001 (st Block.std { c8 with selWord := 0 })) State.usel = true := by decide
theorem test_SP6 : next? (bus 0x00000000000 (st blk c8)) (fun s => s.blk == blk && s.draws == 1) = true := by decide
theorem test_SP9 : next? (bus 0x10400000020 (st Block.std { c8 with selBit := 5 })) State.usel = true := by decide
theorem test_DR1 : next? (bus 0x04000000000 (st { blk with rxq := [0x41, 0x42] } c8))
    (fun s => s.acc == some 0x41 && s.blk.rxq == [0x42] && s.dr) = true := by decide
theorem test_DR4 : next? (bus 0x04000000000 (st { blk with rxq := [0xFF] } c8))
    (fun s => s.acc == some 0xFF && !s.dr) = true := by decide
theorem test_DR8 : next? (bus 0x14000000042 (st { blk with txq := [0x41] } (cfg 1 1 0)))
    (fun s => hasF .f4 s && s.blk.txq == [0x41]) = true := by decide
theorem test_DR11 : next? (bus 0x14000000142 (st { blk with txq := [0x41] } c8))
    (fun s => s.fault == FaultSet.empty && s.blk.txq == [0x41, 0x42]) = true := by decide
theorem test_IF10 :
    next? (bus 0x04400000000 (st { blk with ier := 7 } c8)) (fun s => s.acc == some 7) = true := by decide
theorem test_IF11 : next? (bus 0x144FFFFFFFF (st blk c8)) (fun s => s.blk.ier == 0xF && s.refused.has .x1) = true := by
  decide
theorem test_IF2 : next? (bus 0x04800000000 (st { blk with ier := 7, oe := true, rxq := [0x41] } c8))
    (fun s => s.acc == some 0xC6 && s.irq && s.blk.oe) = true := by decide
theorem test_IF5 :
    next? (bus 0x04800000000 (st { blk with ier := 5 } c8)) (fun s => s.acc == some 0xC1 && !s.irq) = true := by
  decide
theorem test_IF13 : next? (bus 0x14800000006 (st { blk with rxq := [0x31, 0x32], txq := [0x41], tsr := some 0x40 } c8))
    (fun s => s.blk.rxq == [] && s.blk.txq == [] && s.blk.tsr == some 0x40 &&
      s.hist.head? == some (.fifoClr true true)) =
    true := by decide
theorem test_fcr_rx_only : next? (bus 0x14800000002 (st { blk with rxq := [0x31], txq := [0x41] } c8))
    (fun s => s.blk.rxq == [] && s.blk.txq == [0x41]) = true := by decide
theorem test_lcr_break :
    next? (bus 0x14C00000043 (st blk c8)) (fun s => s.blk.lcr == 0x43 && s.refused.has .x4) = true := by
  decide
theorem test_MC2 : next? (bus 0x1500000000D (st { blk with mcr := 0x0F } c8))
    (fun s => s.blk.mcr == 0x0D && !s.rtsReq && s.dtrReq) = true := by decide
theorem test_MC2_read :
    next? (bus 0x05000000000 (st { blk with mcr := 0x0F } c8)) (fun s => s.acc == some 0x0F) = true := by
  decide
theorem test_MC4 :
    next? (bus 0x150FFFFFFE0 (st { blk with mcr := 0x1F } c8)) (fun s => s.blk.mcr == 0) = true := by decide
theorem test_LS3 :
    next? (bus 0x05400000000 (st { blk with rxq := [0x41], oe := true, pe := true, fe := true, bi := true } c8))
    (fun s => s.acc == some 0x7F && !s.blk.oe && !s.blk.pe && !s.blk.fe && !s.blk.bi) = true := by decide
theorem test_LS5 :
    next? (bus 0x05400000000 (st { blk with tsr := some 0x41 } c8)) (fun s => s.acc == some 0x20) = true := by
  decide
theorem test_LS9 : next? (bus 0x154FFFFFFFF (st { blk with oe := true } c8)) (fun s => s.blk.oe) = true := by decide
theorem test_MS1 : next? (bus 0x05800000000 (st blk c8)) (fun s => s.blk == blk && s.draws == 1) = true := by decide
theorem test_MS2 : next? (bus 0x158000000FF (st blk c8)) (fun s => s.blk == blk) = true := by decide
theorem test_SC1 : next? (bus 0x05C00000000 (st { blk with scr := 0xA5 } c8)) (fun s => s.acc == some 0xA5) = true := by
  decide
theorem test_SC2 : next? (bus 0x15C12345678 (st blk c8)) (fun s => s.blk.scr == 0x78) = true := by decide
theorem test_AC1 : next? (bus 0x06000000000 (st blk c8)) (fun s => s.acc == some 3) = true := by decide
theorem test_AC5 : next? (bus 0x1600000000B (st blk c8)) (fun s => s.blk.cntl == 0x0B && s.refused.has .x3) = true := by
  decide
theorem test_AC6 : next? (bus 0x160000001F3 (st blk c8))
    (fun s => s.blk.cntl == 0xF3 && s.refused == RefuseSet.empty) = true := by decide
theorem test_AS2 : (st { blk with rxq := [0x41] } c8).statWord 0 0 0 = 0x0001030B ∧
    (st { blk with rxq := [0x41] } c8).statWord 1 1 1 = 0x000103CF := by decide
theorem test_AS4 : (st { blk with txq := List.replicate 20 0x41 } (cfg 32 2 0)).statWord 0 0 0 = 0x0F00000A := by decide
theorem test_AS5 : next? (bus 0x164FFFFFFFF (st blk c8)) (fun s => s.blk == blk) = true := by decide
theorem test_BA1 :
    next? (bus 0x06800000000 (st { blk with baud := 0x1B } c8)) (fun s => s.acc == some 0x1B) = true := by
  decide
theorem test_BA2 : next? (bus 0x1680001001B (st blk c8)) (fun s => s.blk.baud == 0x1B) = true := by decide

/-! ### One turn (EG, HO, RS) -/

theorem test_EG1 :
    (txLoad (st { blk with txq := [0x41, 0x42] } c8)).blk = { blk with txq := [0x42], tsr := some 0x41 } := rfl
theorem test_EG2 : (txLoad (st { blk with txq := [0x42], tsr := some 0x41 } c8)).blk.txq = [0x42] := rfl
theorem test_EG5 : (txEmit (st { blk with tsr := some 0xC1, lcr := 0x1A, baud := 27 } c8)).lineOut =
    [{ char := 0x41, wls := 2, stb := false, par := 3, div := 27 }] := by decide
theorem test_EG9 :
    (rxArrive 0xC1 false false false false (st { blk with lcr := 0x02 } c8)).blk.rxq = [0x41] := by decide
theorem test_EG11 :
    (rxArrive 0x33 false true false false (st { blk with rxq := [0x31, 0x32] } c8)).blk =
      { blk with rxq := [0x31, 0x32], oe := true } ∧
    (rxArrive 0x33 false true false true (st { blk with rxq := [0x31, 0x32] } c8)).blk =
      { blk with rxq := [0x31, 0x33], oe := true, fe := true } := by decide
theorem test_EG13 : (rxArrive 0x32 true true true true (st { blk with cntl := 0x02, rxq := [0x31] } (cfg 1 1 0))).blk =
    { blk with cntl := 0x02, rxq := [0x31] } := by decide
theorem test_HO1 : hasF .f7 (hostClaim (st blk c8)) = true ∧ (hostClaim (st blk c8)).hpc = 1 := by decide
theorem test_HO2 : next? (hostRd .lsr { st blk c8 with claimed := false })
    (fun s => hasF .f8 s && s.acc == some 0x60 && s.hpc == 1) = true := by decide
theorem test_HO3 : next? (hostWrm .lcr 3 3 (st blk c8))
    (fun s => hasF .f9 s && s.hist == [.fault .f9] && s.hpc == 1) = true := by decide
theorem test_HO7 : next? (hostWrm .mcr 3 1 { st blk c8 with acc := some 0x0F })
    (fun s => s.hist == [.bus true 0x50 0x0D] && s.acc == some 0x0F) = true := by decide
theorem test_HO4_HO5 : (hostBrz 0x20 7 { st blk c8 with acc := some 0x40 }).hpc = 7 ∧
    (hostBrz 0x20 7 { st blk c8 with acc := some 0x60 }).hpc = 1 := by decide
theorem test_HO6 : (hostRet8 { st blk c8 with acc := some 0x1FF }).out = [0xFF] := by decide
theorem test_HO9 : initOps c8 0 = [.refuseDivisor] ∧ initOps c8 0x10000 = [.refuseDivisor] ∧
    (initOps c8 1).length = 13 := by decide
theorem test_HO10 : writeBytes 0 [] = [] := rfl
theorem test_RS4 : hasF .f4 (resetBlock { st blk c8 with fault := FaultSet.empty.add .f4 }) = true := by decide
theorem test_placed_runs : step (State.withFetchWord (st { blk with rxq := [0x41] } c8) 48 0x04000000000) =
    .next { st blk c8 with
      script := [.bus 0x04000000000#41], acc := some 0x41, hist := [.bus false 0x40 0x41], hpc := 1 } := rfl
theorem test_rmw_poll :
    rmw .mcr 2 0 = [.rd .mcr, .wrm .mcr 2 0] ∧ poll 14 .lsr 0x20 = [.rd .lsr, .brz 0x20 14] := by decide

/-! ### Every obligation with hypotheses: a case that meets them, for each clause -/

theorem witness_OperationMapInFull :
    (0x02#8).toNat % 4 ≠ 0 ∧ (0xFF#8).toNat % 4 ≠ 0 ∧
    (0x08#8).toNat % 4 = 0 ∧
    (0x08#8).toNat ∉ [0x00, 0x04, 0x40, 0x44, 0x48, 0x4C, 0x50, 0x54, 0x58, 0x5C, 0x60, 0x64, 0x68] ∧
    (0xFC#8).toNat % 4 = 0 ∧
    (0xFC#8).toNat ∉ [0x00, 0x04, 0x40, 0x44, 0x48, 0x4C, 0x50, 0x54, 0x58, 0x5C, 0x60, 0x64, 0x68] := by
  decide
theorem witness_DecodeInvertsEncode : RegMap.std.wf = true ∧ { RegMap.std with offBaud := 0xFC }.wf = true := by decide
theorem witness_EncodeRestoresDecodedWord :
    (decode RegMap.std 0x048FFFFFFFF#41 = .ok .rdIir ∧ (0x048FFFFFFFF#41).getLsbD 40 = false) ∧
    (decode RegMap.std 0x14000000041#41 = .ok (.wrThr 0x41) ∧ (0x14000000041#41).getLsbD 40 = true) := by decide
theorem witness_SelectorAloneDeterminesOperation :
    decode RegMap.std (0x008#9 ++ 0#32) = .error .unmapped ∧
    (decode RegMap.std (0x048#9 ++ 5#32) = .ok .rdIir ∧ Instr.we .rdIir = false) ∧
    (decode RegMap.std (0x148#9 ++ 5#32) = .ok (.wrFcr 5) ∧ Instr.we (.wrFcr 5) = true) := by decide
theorem witness_MaskedSetChangesTheFieldOnly :
    (0 ≤ 31 ∧ 31 < 32 ∧ (0xFFFFFFFF#32).toNat < 2 ^ (31 - 0 + 1)) ∧
    (31 ≤ 31 ∧ 31 < 32 ∧ (1#32).toNat < 2 ^ (31 - 31 + 1) ∧ (30 < 31 ∨ 31 < 30)) := by decide
theorem witness_UnselectedAccessFaults :
    (Instr.reg .rdLsr ≠ .sel0 ∧ Instr.reg .rdLsr ≠ .sel1 ∧ (st Block.std c8).usel = false ∧ Instr.we .rdLsr = false) ∧
    (Instr.reg (.wrBaud 0) ≠ .sel0 ∧ Instr.reg (.wrBaud 0) ≠ .sel1 ∧ (st Block.std c8).usel = false ∧
      Instr.we (.wrBaud 0) = true) := by decide
theorem witness_ModeFlagAccessFaults :
    (Instr.reg .rdIer = .data ∨ Instr.reg .rdIer = .ier) ∧ Instr.we .rdIer = false ∧
    (Instr.reg (.wrThr 0) = .data ∨ Instr.reg (.wrThr 0) = .ier) ∧ Instr.we (.wrThr 0) = true ∧
    (st { blk with lcr := 0x80 } c8).usel = true ∧
    (st { blk with lcr := 0x80 } c8).blk.lcr.getLsbD 7 = true := by decide
theorem witness_UnnamedOffsetFaults :
    (0x01#8).toNat % 4 ≠ 0 ∧ (0xFC#8).toNat % 4 = 0 ∧ ∀ r : Reg, (st blk c8).cfg.map.off r ≠ 0xFC#8 := by
  refine ⟨by decide, by decide, fun r => ?_⟩
  cases r <;> decide
theorem witness_WrongWidthFaults :
    (st blk c8).cfg.base ≤ 0x10FF ∧ 0x10FF < (st blk c8).cfg.base + 0x100 ∧ (1 : Nat) ≠ 4 ∧ (8 : Nat) ≠ 4 := by decide
theorem witness_FirstFailingCheckDecides :
    c8.wf = true ∧ (0xFF#8).toNat % 4 ≠ 0 ∧ (0x08#8).toNat % 4 = 0 ∧ 0x08#8 ∉ Reg.all.map c8.map.off ∧
    0x54#8 ∈ Reg.all.map c8.map.off ∧ (st Block.std c8).usel = false ∧ 0x44#8 = c8.map.offIer ∧
    (st { blk with lcr := 0x83 } c8).usel = true ∧
    (st { blk with lcr := 0x83 } c8).blk.lcr.getLsbD 7 = true := by decide
theorem witness_select_words :
    (st blk c8).cfg.selWord = 1 ∧ (st blk { c8 with selWord := 0 }).cfg.selWord = 0 := by decide
theorem witness_ReceiveBufferReads :
    (st { blk with rxq := [0x41] } c8).usel = true ∧ (st blk c8).blk.lcr.getLsbD 7 = false ∧
    (st { blk with rxq := [0x41] } c8).blk.rxq = 0x41 :: [] ∧ (st blk c8).usel = true ∧
    (st blk c8).blk.rxq = [] := by decide
theorem witness_TransmitHoldingWrites :
    (st blk c8).usel = true ∧ (st blk c8).blk.lcr.getLsbD 7 = false ∧
    (st { blk with txq := List.replicate 7 0 } c8).blk.txq.length ≠ c8.txDepth ∧
    (st { blk with txq := List.replicate 8 0 } c8).blk.txq.length = c8.txDepth := by decide
theorem witness_InterruptEnableReadsAndWrites :
    (st blk c8).usel = true ∧ (st blk c8).blk.lcr.getLsbD 7 = false ∧ (0x7#32).getLsbD 3 = false ∧
    (0x8#32).getLsbD 3 = true := by decide
theorem witness_InterruptIdentificationByPriority :
    (st blk c8).usel = true ∧
    ((st blk c8).pending1 = false ∧ (st blk c8).pending2 = false ∧ (st blk c8).pending3 = false) ∧
    (st { blk with ier := 4, bi := true } c8).pending1 = true ∧
    (st { blk with ier := 1, rxq := [0] } c8).pending2 = true ∧
    (st { blk with ier := 2 } c8).pending3 = true := by decide
theorem witness_InterruptOutputFollowsEnables :
    (st blk c8).blk.ier = 0 ∧ (st blk c8).usel = true ∧ (st blk c8).cfg.fifoState = 0b11 := by decide
/-- Of the statements about FIFO control, line status, the ignored writes, modem status, scratch, auxiliary status and the
divisor: selected, and both settings of `LSR_COR`. -/
theorem witness_selected : (st blk c8).usel = true ∧ (st blk c8).cfg.lsrCor = true ∧
    (st blk { c8 with lsrCor := false }).usel = true ∧
    (st blk { c8 with lsrCor := false }).cfg.lsrCor = false := by decide
theorem witness_LineControlReadsAndWrites :
    (st blk c8).usel = true ∧ (0xBF#32).getLsbD 6 = false ∧ (0x40#32).getLsbD 6 = true := by decide
theorem witness_ModemControlReadsAndWrites :
    (st blk c8).usel = true ∧ (0x0F#32).getLsbD 4 = false ∧ (0x10#32).getLsbD 4 = true ∧
    next? (exec (.wrMcr 0x1F) (st blk c8)) (fun _ => true) = true := by decide
theorem witness_AuxControlReadsAndWrites :
    (st blk c8).usel = true ∧ ((0xF3#32).getLsbD 2 = false ∧ (0xF3#32).getLsbD 3 = false) ∧
    ((0x04#32).getLsbD 2 = true ∨ (0x04#32).getLsbD 3 = true) ∧
    ((0x08#32).getLsbD 2 = true ∨ (0x08#32).getLsbD 3 = true) ∧
    next? (exec (.wrCntl 3) (st blk c8)) (fun _ => true) = true := by decide
theorem witness_TransmitEngineLoads :
    ({ st { blk with txq := [0x41] } c8 with turns := [.txLoad] } : State).turns = .txLoad :: [] ∧
    (st { blk with txq := [0x41] } c8).usel = true ∧ (st { blk with txq := [0x41] } c8).blk.cntl.getLsbD 1 = true ∧
    (st { blk with txq := [0x41] } c8).blk.tsr = none ∧ (st { blk with txq := [0x41] } c8).blk.txq = 0x41 :: [] ∧
    (st Block.std c8).usel = false ∧ (st { blk with cntl := 1 } c8).blk.cntl.getLsbD 1 = false ∧
    (st { blk with tsr := some 1 } c8).blk.tsr ≠ none ∧ (st blk c8).blk.txq = [] := by decide
theorem witness_TransmitEngineEmits :
    ({ st { blk with tsr := some 0x41 } c8 with turns := [.txEmit] } : State).turns = .txEmit :: [] ∧
    (st { blk with tsr := some 0x41 } c8).usel = true ∧ (st { blk with tsr := some 0x41 } c8).blk.tsr = some 0x41 ∧
    (st blk c8).blk.tsr = none ∧ (st { Block.std with tsr := some 0x41 } c8).usel = false := by decide
theorem witness_ReceiveEngineStores :
    ({ st { blk with rxq := [0x31] } c8 with turns := [.rxArrive 0xC1 true false false true] } : State).turns =
      .rxArrive 0xC1 true false false true :: [] ∧
    (st { blk with rxq := [0x31] } c8).usel = true ∧ (st { blk with rxq := [0x31] } c8).blk.cntl.getLsbD 0 = true ∧
    (st { blk with rxq := [0x31] } c8).blk.rxq.length < c8.rxDepth ∧
    0xC1#8 = 0xC1#8 &&& BitVec.ofNat 8 (2 ^ (5 + ((st blk c8).blk.lcr.extractLsb' 0 2).toNat) - 1) := by decide
theorem witness_ReceiveOverrunDropsOrReplaces :
    (st { blk with rxq := [0x31, 0x32] } c8).usel = true ∧
    (st { blk with rxq := [0x31, 0x32] } c8).blk.cntl.getLsbD 0 = true ∧
    (st { blk with rxq := [0x31, 0x32] } c8).blk.rxq.length = c8.rxDepth ∧
    0x33#8 = 0x33#8 &&& BitVec.ofNat 8 (2 ^ (5 + ((st blk c8).blk.lcr.extractLsb' 0 2).toNat) - 1) ∧
    ({ st { blk with rxq := [0x31, 0x32] } c8 with turns := [.rxArrive 0x33 false true false false] } : State).turns =
      .rxArrive 0x33 false true false false :: [] ∧
    ({ st { blk with rxq := [0x31, 0x32] } c8 with turns := [.rxArrive 0x33 false true false true] } : State).turns =
      .rxArrive 0x33 false true false true :: [] := by decide
theorem witness_UnwantedCharacterIsIgnored :
    ({ st { blk with cntl := 2 } c8 with turns := [.rxArrive 0x32 true true true true] } : State).turns =
      .rxArrive 0x32 true true true true :: [] ∧
    (st { blk with cntl := 2 } c8).blk.cntl.getLsbD 0 = false ∧ (st Block.std c8).usel = false ∧
    (st { blk with cntl := 2 } c8).inv = true := by decide
theorem witness_EnginesFrozenWhileUnselected :
    (st { Block.std with txq := [0x42], tsr := some 0x41 } c8).usel = false ∧ Turn.txLoad ≠ .host ∧
    Turn.txLoad ≠ .reset ∧
    next? (runTurn .txLoad (st { Block.std with txq := [0x42], tsr := some 0x41 } c8)) (fun _ => true) = true := by decide
theorem witness_ResetStepSetsTheBlockOnly :
    ({ st { blk with txq := [0x42] } c8 with turns := [.reset] } : State).turns = .reset :: [] := by decide

/-- The host about to read line status, in three ways. -/
theorem witness_StepRunsTheDecodedInstruction :
    (host [.bus 0x05400000000#41] (st blk c8)).turns = .host :: [] ∧
    (host [.bus 0x05400000000#41] (st blk c8)).script[(host [.bus 0x05400000000#41] (st blk c8)).hpc]? =
      some (.bus 0x05400000000#41) ∧
    decode c8.map 0x05400000000#41 = .ok .rdLsr := by decide
theorem witness_PlacedWordRunsNext :
    0x1680000001B % 2 ^ 48 < 2 ^ 41 ∧
    decode (st blk c8).cfg.map (BitVec.ofNat 41 (0x1680000001B % 2 ^ 48)) = .ok (.wrBaud 27) := by
  decide
theorem witness_ClaimIsMadeOnce :
    (host [.claim] (st blk c8)).turns = .host :: [] ∧ (host [.claim] (st blk c8)).script[0]? = some .claim ∧
    (host [.claim] (st blk c8)).claimed = true ∧
    (host [.claim] { st blk c8 with claimed := false }).claimed = false := by decide
theorem witness_HostReadIsOneTransaction :
    (host [.rd .lsr] (st blk c8)).turns = .host :: [] ∧ (host [.rd .lsr] (st blk c8)).script[0]? = some (.rd .lsr) ∧
    (host [.rd .lsr] (st blk c8)).claimed = true := by decide
theorem witness_HostWriteIsOneTransaction :
    (host [.wr .thr 0x41] (st blk c8)).turns = .host :: [] ∧
    (host [.wr .thr 0x41] (st blk c8)).script[0]? = some (.wr .thr 0x41) ∧
    (host [.wr .thr 0x41] (st blk c8)).claimed = true := by decide
theorem witness_MaskedWriteMergesAcc :
    (host [.wrm .lcr 3 3] (st blk c8)).turns = .host :: [] ∧
    (host [.wrm .lcr 3 3] (st blk c8)).script[0]? = some (.wrm .lcr 3 3) ∧
    (host [.wrm .lcr 3 3] (st blk c8)).acc = none ∧
    (host [.wrm .lcr 3 3] { st blk c8 with acc := some 0 }).acc = some 0 := by decide
theorem witness_BranchTestsMaskedAcc :
    (host [.brz 0x20 0] (st blk c8)).turns = .host :: [] ∧
    (host [.brz 0x20 0] (st blk c8)).script[0]? = some (.brz 0x20 0) ∧
    (host [.brz 0x20 0] (st blk c8)).acc = none ∧ 0x40#32 &&& 0x20#32 = 0 ∧ 0x60#32 &&& 0x20#32 ≠ 0 ∧
    (host [.brz 0x20 0] { st blk c8 with acc := some 0x40 }).acc = some 0x40#32 ∧
    (host [.brz 0x20 0] { st blk c8 with acc := some 0x60 }).acc = some 0x60#32 := by decide
theorem witness_ReturnByteAppendsLowByte :
    (host [.ret8] (st blk c8)).turns = .host :: [] ∧ (host [.ret8] (st blk c8)).script[0]? = some .ret8 ∧
    (host [.ret8] (st blk c8)).acc = none ∧
    (host [.ret8] { st blk c8 with acc := some 0x1FF }).acc = some 0x1FF := by decide
theorem witness_HaltStays :
    (host [.halt] (st blk c8)).turns = .host :: [] ∧ (host [.halt] (st blk c8)).script[0]? = some .halt ∧
    (host [] (st blk c8)).turns = .host :: [] ∧
    (host [] (st blk c8)).script.length ≤ (host [] (st blk c8)).hpc := by decide
theorem witness_DivisorFormula : 0 < 115200 ∧ { c8 with targetBaud := 0 }.targetBaud = 0 := by decide
theorem witness_InitRefusesDivisorOutOfRange :
    ((0 : Nat) = 0 ∨ 0xFFFF < 0) ∧ (0x10000 = 0 ∨ 0xFFFF < 0x10000) ∧
    (host (initOps c8 0x10000) (st blk c8)).turns = .host :: [] ∧
    (host (initOps c8 0x10000) (st blk c8)).script[0]? = (initOps c8 0x10000)[0]? := by decide

/-- After power-on, claimed, `INIT #d` before the host `n` times and the host's turns. -/
def initSt (d n : Nat) : State :=
  { st Block.std c8 with
    script := (List.replicate n (initOps c8 d)).flatten, turns := List.replicate (13 * n) .host }

theorem witness_InitReachesItsEndState :
    (initSt 0xFFFF 1).cfg.wf = true ∧ 1 ≤ 0xFFFF ∧ 0xFFFF ≤ 0xFFFF ∧ (initSt 0xFFFF 1).claimed = true ∧
    (initSt 0xFFFF 1).blk.lcr.getLsbD 7 = false ∧ (initSt 0xFFFF 1).turns = List.replicate 13 .host ++ [] ∧
    (∀ j, j < 13 → (initSt 0xFFFF 1).script[(initSt 0xFFFF 1).hpc + j]? = (initOps c8 0xFFFF)[j]?) ∧
    (initSt 0xFFFF 1).blk.lcr.getLsbD 6 = false ∧ (initSt 0xFFFF 1).blk.mcr.getLsbD 4 = false ∧
    (initSt 0xFFFF 1).blk.cntl.getLsbD 2 = false ∧ (initSt 0xFFFF 1).blk.cntl.getLsbD 3 = false := by decide
theorem witness_InitIsIdempotentOnRegisters :
    (initSt 27 2).cfg.wf = true ∧ (initSt 27 2).claimed = true ∧ (initSt 27 2).blk.lcr.getLsbD 7 = false ∧
    (initSt 27 2).turns = List.replicate 26 .host ++ [] ∧
    (∀ j, j < 26 → (initSt 27 2).script[(initSt 27 2).hpc + j]? = (initOps c8 27 ++ initOps c8 27)[j]?) := by decide

/-- The host about to write a byte, with room. -/
def writeSt : State := { st blk c8 with script := writeByte 0 0x41, turns := [.host, .host, .host] }

/-- The host about to read a byte, with one queued. -/
def readSt : State := { st { blk with rxq := [0x5A] } c8 with script := readByte 0, turns := [.host, .host, .host] }

/-- A run's state, asked. -/
def ran (k : Nat) (s : State) (p : State → Bool) : Bool := next? (Host.Core.run core k s) p

theorem witness_WriteByteNeverOverflows :
    writeSt.inv = true ∧ writeSt.hpc = 0 ∧ (∀ j, j < 3 → writeSt.script[0 + j]? = (writeByte 0 0x41)[j]?) ∧
    ran 0 writeSt (fun t => t.hpc != 3) = true ∧ ran 1 writeSt (fun t => t.hpc != 3) = true ∧
    ran 2 writeSt (fun t => t.hpc != 3) = true ∧
    ran 3 writeSt (fun t => !(t.hist.drop writeSt.hist.length).contains .reset &&
      t.blk.txq == [0x41]) = true := by decide
theorem witness_ReadByteNeverReadsEmpty :
    readSt.inv = true ∧ readSt.hpc = 0 ∧ (∀ j, j < 4 → readSt.script[0 + j]? = (readByte 0)[j]?) ∧
    ran 0 readSt (fun t => t.hpc != 4) = true ∧ ran 1 readSt (fun t => t.hpc != 4) = true ∧
    ran 2 readSt (fun t => t.hpc != 4) = true ∧
    ran 3 readSt (fun t => !(t.hist.drop readSt.hist.length).contains .reset && t.acc == some 0x5A) = true := by decide
theorem witness_EveryStepKeepsInvariant : writeSt.inv = true ∧ ran 1 writeSt (fun _ => true) = true := by decide
/-- A step of the transmit engine: it answers a next state, and records neither a write nor a `RESET`. -/
theorem witness_OnlyHostWritesAndResetChangeRegisters :
    ran 1 { st { blk with txq := [0x41] } c8 with turns := [.txLoad] } (fun t => t.hist == [.txLoad 0x41]) = true := by decide
theorem witness_RecordsOnlyGrow_TransmitPathIsFifo :
    ran 1 { st { blk with tsr := some 0x41 } c8 with turns := [.txEmit] } (fun t => t.lineOut.length == 1) = true := by decide
theorem witness_RecordsOnlyGrow_clauses :
    hasF .f4 { st blk c8 with fault := FaultSet.empty.add .f4 } = true ∧ (st blk c8).claimed = true ∧
    (RefuseSet.empty.add .x1).has .x1 = true := by decide
theorem witness_RoomPersistsAfterPoll :
    (st blk c8).inv = true ∧ (st blk c8).usel = true ∧
    next? (exec .rdLsr { st blk c8 with turns := [.txLoad] }) (fun s0 =>
      (match s0.acc with | some v => v.getLsbD 5 | none => false) &&
      ran 1 s0 (fun t => t.hist.drop s0.hist.length == [])) = true := by decide
theorem witness_DataPersistsAfterPoll :
    (st { blk with rxq := [0x41] } c8).usel = true ∧
    next? (exec .rdLsr { st { blk with rxq := [0x41] } c8 with turns := [.txLoad] }) (fun s0 =>
      (match s0.acc with | some v => v.getLsbD 0 | none => false) &&
      ran 1 s0 (fun t => t.hist.drop s0.hist.length == [])) = true := by decide

end Sys2Proof.Tests
end

/-! SUPPORT. Proofs of the statements about the encoding and the masked set (00_scope.md): decoding the word of an
operation, and the field mask of R18 bit by bit. -/

namespace Sys2Proof

/-- Decoding the canonical word of an operation (R100, R102): the offset finds the register, the direction its view. -/
theorem decode_encode {m : RegMap} (h : m.wf = true) (i : Instr) : decode m (encode m i) = .ok i := by
  calc decode m (encode m i)
      = .ok (if i.we then writeView i.wdata i.reg else readView i.reg) := decode_at h i.we i.reg i.wdata
    _ = .ok i := by rw [← Instr.eq_view]

/-- Settles O3: the word stands at its register's offset, and an operation is the view of its register. -/
theorem decodeInvertsEncode : Obligations.DecodeInvertsEncode :=
  fun _ h i => decode_encode h i

end Sys2Proof

namespace Sys2Proof.Machine

/-- The number with its `n` low bits set; at `n = 32` the shift gives 0, and the subtraction wraps to all ones. -/
theorem toNat_lowOnes {n : Nat} (hn : n ≤ 32) : ((1#32 <<< n) - 1#32).toNat = 2 ^ n - 1 := by
  obtain rfl | hlt := hn.eq_or_lt
  · rfl
  · have hpos : 0 < 2 ^ n := Nat.two_pow_pos n
    have hle : 2 ^ n < 2 ^ 32 := Nat.pow_lt_pow_right (by decide) hlt
    have hshift : (1#32 <<< n).toNat = 2 ^ n := by
      rw [BitVec.toNat_shiftLeft, BitVec.toNat_ofNat, Nat.shiftLeft_eq]
      simpa using Nat.mod_eq_of_lt hle
    rw [BitVec.toNat_sub_of_le (by rw [BitVec.le_def, hshift]; exact hpos), hshift]
    rfl

/-- The mask of a field has exactly the bits `hi:lo` (R18). -/
theorem getLsbD_fieldMask {hi lo : Nat} (hle : lo ≤ hi) (hhi : hi < 32) (k : Nat) :
    (fieldMask hi lo).getLsbD k = decide (lo ≤ k ∧ k ≤ hi) := by
  have hones (j : Nat) : ((1#32 <<< (hi - lo + 1)) - 1#32).getLsbD j = decide (j < hi - lo + 1) := by
    rw [BitVec.getLsbD, toNat_lowOnes (by omega), Nat.testBit_two_pow_sub_one]
  rw [fieldMask, BitVec.getLsbD_shiftLeft, hones, Bool.eq_iff_iff]
  simp only [Bool.and_eq_true, Bool.not_eq_true', decide_eq_true_eq, decide_eq_false_iff_not]
  omega

/-- A masked set, bit by bit: the value's bits inside the field, the word's outside. -/
theorem getLsbD_setField {hi lo : Nat} (hle : lo ≤ hi) (hhi : hi < 32) (w f : Word) (k : Nat) :
    (setField w hi lo f).getLsbD k = if lo ≤ k ∧ k ≤ hi then f.getLsbD (k - lo) else w.getLsbD k := by
  rw [setField, BitVec.getLsbD_or, BitVec.getLsbD_and, BitVec.getLsbD_and, BitVec.getLsbD_not,
    getLsbD_fieldMask hle hhi, BitVec.getLsbD_shiftLeft]
  split
  case isTrue hin => simp [hin, show k < 32 by omega, show ¬ k < lo by omega]
  case isFalse hout =>
    by_cases hk : k < 32
    · simp [hout, hk]
    · simp [hout, BitVec.getLsbD_of_ge w k (by omega)]

/-- The masked get, bit by bit. -/
theorem getLsbD_getField {hi lo : Nat} (hle : lo ≤ hi) (hhi : hi < 32) (w : Word) (k : Nat) :
    (getField w hi lo).getLsbD k = (w.getLsbD (lo + k) && decide (lo + k ≤ hi)) := by
  rw [getField, BitVec.getLsbD_ushiftRight, BitVec.getLsbD_and, getLsbD_fieldMask hle hhi]
  simp

/-- A value below `2 ^ n` has no bit from `n` on. -/
theorem getLsbD_of_toNat_lt {f : Word} {n k : Nat} (hf : f.toNat < 2 ^ n) (hk : n ≤ k) : f.getLsbD k = false :=
  Nat.testBit_lt_two_pow (hf.trans_le (Nat.pow_le_pow_right (by decide) hk))

section Field

variable {hi lo : Nat} {f : Word} (hle : lo ≤ hi) (hhi : hi < 32) (hf : f.toNat < 2 ^ (hi - lo + 1))
include hle hhi hf

/-- The masked get of the masked set is the value set, if the value fits the field (R18). -/
theorem getField_setField (w : Word) : getField (setField w hi lo f) hi lo = f := by
  apply BitVec.eq_of_getLsbD_eq
  intro k _
  rw [getLsbD_getField hle hhi, getLsbD_setField hle hhi]
  by_cases hin : lo + k ≤ hi
  · simp [hin]
  · simp [hin, getLsbD_of_toNat_lt hf (show hi - lo + 1 ≤ k by omega)]

/-- A value that fits its field loses nothing to the mask. -/
theorem shiftLeft_and_fieldMask : (f <<< lo) &&& fieldMask hi lo = f <<< lo := by
  apply BitVec.eq_of_getLsbD_eq
  intro k _
  rw [BitVec.getLsbD_and, getLsbD_fieldMask hle hhi, BitVec.getLsbD_shiftLeft]
  by_cases hin : lo ≤ k ∧ k ≤ hi
  · simp [hin]
  · by_cases hlo : k < lo
    · simp [hlo]
    · simp [getLsbD_of_toNat_lt hf (show hi - lo + 1 ≤ k - lo by omega)]

/-- The merge of `WRM` (R284) with the field mask and the shifted value is the masked set. -/
theorem mergeMasks_fieldMask (w : Word) : mergeMasks w (fieldMask hi lo) (f <<< lo) = setField w hi lo f := by
  rw [mergeMasks, setField, shiftLeft_and_fieldMask hle hhi hf]

end Field

/-- Outside the field a masked set leaves every bit (R18). -/
theorem getLsbD_setField_outside {hi lo k : Nat} (hle : lo ≤ hi) (hhi : hi < 32) (w f : Word)
    (hk : k < lo ∨ hi < k) : (setField w hi lo f).getLsbD k = w.getLsbD k := by
  rw [getLsbD_setField hle hhi, if_neg (by omega)]

/-- Settles O6, from the bits of the field mask. -/
theorem maskedSetChangesTheFieldOnly : Obligations.MaskedSetChangesTheFieldOnly :=
  fun w f _ _ hle hhi hf =>
    ⟨getField_setField hle hhi hf w, fun _ hk => getLsbD_setField_outside hle hhi w f hk,
      mergeMasks_fieldMask hle hhi hf w⟩

end Sys2Proof.Machine

/-! SUPPORT. Proofs of the statements about the state as a whole (10_state.md): the invariant of R45, and what no step
of any agent takes back (R42, R48). -/

namespace Sys2Proof

/-- The bounds on the two queues (R33, R35). -/
theorem Block.fits_iff {c : Cfg} {b : Block} :
    b.fits c = true ↔ b.txq.length ≤ c.txDepth ∧ b.rxq.length ≤ c.rxDepth := by
  simp [Block.fits]

/-- The constraints on the parameters, one by one. -/
theorem Cfg.wf_iff {c : Cfg} :
    c.wf = true ↔ c.base % 4 = 0 ∧ c.base + 0x100 ≤ 2 ^ 32 ∧ c.map.wf = true ∧ 1 ≤ c.txDepth ∧ 1 ≤ c.rxDepth ∧
      c.threLevel < c.txDepth ∧ c.fifoState ≠ 0b01#2 ∧ c.rst.fits c = true := by
  simp [Cfg.wf, and_assoc]

/-- The reset block of R361 has empty queues, which fit any depths. -/
theorem Block.std_fits (c : Cfg) : Block.std.fits c = true :=
  Block.fits_iff.mpr ⟨Nat.zero_le _, Nat.zero_le _⟩

/-- The configuration after reset meets its constraints, whatever the free values behind the OPEN parameters are. -/
theorem Config.cfg_wf : Config.cfg.wf = true := by
  have hbase : Config.base % 4 = 0 ∧ Config.base + 0x100 ≤ 2 ^ 32 := by
    unfold Config.base
    omega
  have hthre : Config.threLevel < Config.txDepth := Nat.mod_lt _ (Nat.succ_pos _)
  exact Cfg.wf_iff.mpr ⟨hbase.1, hbase.2, RegMap.std_wf, Nat.succ_pos _, Nat.succ_pos _, hthre,
    (by decide : (0b11#2) ≠ 0b01#2), Block.std_fits _⟩

namespace Machine

/-- The two parts of the invariant (R45). -/
theorem State.inv_iff {s : State} : s.inv = true ↔ s.cfg.wf = true ∧ s.blk.fits s.cfg = true := by
  simp [State.inv]

/-- No effect fills a queue beyond its depth: only a push, an arrival and a reset can lengthen one, and each is
bounded, the first two by their guards and the last by the constraint on the reset value. -/
theorem Effect.keeps_fits {s s' : State} {new : List Event} (e : Effect s s' new) (hwf : s.cfg.wf = true)
    (hfits : s.blk.fits s.cfg = true) : s'.blk.fits s.cfg = true := by
  obtain ⟨-, -, -, -, hrx1, -, -, hrst⟩ := Cfg.wf_iff.mp hwf
  obtain ⟨htx, hrx⟩ := Block.fits_iff.mp hfits
  cases e with
  | quiet blk => rw [blk]; exact hfits
  | store _ _ _ blk => rw [blk]; exact hfits
  | clearErrors blk => rw [blk]; exact hfits
  | emit _ _ _ blk => rw [blk]; exact hfits
  | pop c rest _ _ had blk =>
    rw [had, List.length_cons] at hrx
    rw [blk]
    exact Block.fits_iff.mpr ⟨htx, Nat.le_of_succ_le hrx⟩
  | load c rest _ had blk =>
    rw [had, List.length_cons] at htx
    rw [blk]
    exact Block.fits_iff.mpr ⟨Nat.le_of_succ_le htx, hrx⟩
  | push v _ room blk =>
    rw [blk, Block.fits_iff, List.length_append]
    exact ⟨Nat.succ_le_of_lt (lt_of_le_of_ne htx room), hrx⟩
  | fifoClr rx tx _ blk =>
    rw [blk]
    exact Block.fits_iff.mpr ⟨by cases tx <;> simp [htx], by cases rx <;> simp [hrx]⟩
  | arrive m q blk =>
    have htxq : s'.blk.txq = s.blk.txq := by rw [blk]
    refine Block.fits_iff.mpr ⟨htxq ▸ htx, ?_⟩
    obtain ⟨room, hq⟩ | hq | ⟨-, hq⟩ := q <;> rw [hq]
    · simpa using room
    · exact hrx
    · rw [List.length_append, List.length_dropLast, List.length_singleton]
      omega
  | reset _ blk => rwa [blk]

/-- Settles O55: a step leaves the configuration alone, and its effect on the block keeps the queues in bounds. -/
theorem everyStepKeepsInvariant : Obligations.EveryStepKeepsInvariant := by
  intro s s' hinv hstep
  obtain ⟨hwf, hfits⟩ := State.inv_iff.mp hinv
  obtain ⟨new, grows, effect⟩ := step_spec hstep
  rw [State.inv_iff, grows.cfg]
  exact ⟨hwf, effect.keeps_fits hwf hfits⟩

/-- Settles O56: what a step lets grow, field by field. -/
theorem recordsOnlyGrow : Obligations.RecordsOnlyGrow := by
  intro s s' hstep
  obtain ⟨new, grows, -⟩ := step_spec hstep
  exact ⟨grows.fault, grows.refused, ⟨new, grows.hist.symm⟩, grows.line, grows.out, grows.claimed, grows.cfg,
    grows.script, grows.draws⟩

/-- Settles O54: the configuration is well formed, and the block starts as the reset block, whose queues are empty. -/
theorem invariantAtReset : Obligations.InvariantAtReset :=
  State.inv_iff.mpr ⟨Config.cfg_wf, Block.std_fits _⟩

end Machine

end Sys2Proof

/-! SUPPORT. Proofs of the statements about the accesses (20_memory.md): the two access primitives at another width than
4 (R72, R142), and the host's step at one transaction (R71). -/

namespace Sys2Proof.Machine

/-- The addresses of the window (R70). -/
theorem inWindow_iff {c : Cfg} {addr : Nat} : inWindow c addr = true ↔ c.base ≤ addr ∧ addr < c.base + 0x100 := by
  simp [inWindow]

section Narrow

variable {addr n : Nat} {s : State} (hwin : inWindow s.cfg addr = true) (hn : n ≠ 4)
include hwin hn

/-- A read of another width than 4 in the window makes no transaction (R142). -/
theorem memRead_narrow : memRead addr n s = .next (narrowRead (offsetOf s.cfg addr) n s) := by
  simp [memRead, hwin, hn]

/-- A write of another width than 4 in the window is the faulting write of F3 (R142). -/
theorem memWrite_narrow (v : Nat) : memWrite addr n v s =
    .next (faultWrite .f3 (offsetOf s.cfg addr) (BitVec.ofNat 32 (v % 2 ^ (8 * n))) s) := by
  simp [memWrite, hwin, hn]

end Narrow

/-- A read of another width than 4, field by field: it changes only the record, `acc` and the count of draws. -/
theorem narrowRead_eq (off : Byte) (n : Nat) (s : State) : narrowRead off n s = { s with
    fault := s.fault.add .f3, acc := some (zext (Config.draw (8 * n) s.draws)), draws := s.draws + 1,
    hist := s.hist ++ [.fault .f3, .bus false off (zext (Config.draw (8 * n) s.draws))] } := by
  simp [narrowRead, State.endRead, State.raise, State.addFault, State.log, State.drew, State.setAcc, State.free]

/-- Settles O10: the access never reaches the decoder, and the two faulting accesses are known field by field. -/
theorem wrongWidthFaults : Obligations.WrongWidthFaults := by
  intro addr n v s hbase htop hn
  have hwin : inWindow s.cfg addr = true := inWindow_iff.mpr ⟨hbase, htop⟩
  constructor
  · rw [memRead_narrow hwin hn, narrowRead_eq]
    rfl
  · rw [memWrite_narrow hwin hn, faultWrite_eq]
    rfl

/-- A transaction whose word names an operation performs it (R71, R101). -/
theorem busTxn_of_decode {t : Txn} {i : Instr} {s : State} (h : decode s.cfg.map t = .ok i) :
    busTxn t s = exec i s := by
  simp [busTxn, h]

/-- The host's turn at `bus t` is the operation its word names, and then the script counter moves on. -/
theorem step_bus {s : State} {rest : List Turn} {t : Txn} {i : Instr} (hturn : s.turns = .host :: rest)
    (hop : s.script[s.hpc]? = some (.bus t)) (hdec : decode s.cfg.map t = .ok i) :
    step s = onNext State.advance (exec i { s with turns := rest }) := by
  have htxn : busTxn t { s with turns := rest } = exec i { s with turns := rest } := busTxn_of_decode hdec
  calc step s = hostOp (.bus t) { s with turns := rest } := step_host hturn hop
    _ = onNext State.advance (busTxn t { s with turns := rest }) := rfl
    _ = onNext State.advance (exec i { s with turns := rest }) := by rw [htxn]

/-- Settles O39: `onNext` moves the counter after a next state and passes a fault or a refusal on. -/
theorem stepRunsTheDecodedInstruction : Obligations.StepRunsTheDecodedInstruction := by
  intro s rest t i hturn hop hdec
  rw [step_bus hturn hop hdec]
  cases exec i { s with turns := rest } with
  | next s' => rfl
  | fault r => rfl
  | refused r => rfl

end Sys2Proof.Machine

/-! SUPPORT. Proofs of the statements about the transaction word (30_encoding.md): what the selector decides (R100 to
R102, R133), which of the four checks a transaction meets first (R140, R141), the word placed for the next step, and
the divisor (R128). -/

namespace Sys2Proof

/-! ### The selector -/

/-- The mask of R102 keeps the nine bits of the selector and clears the data. -/
theorem append_and_selectorMask (sel : BitVec 9) (v : Word) : (sel ++ v) &&& 0x1FF00000000#41 = sel ++ 0#32 := by
  have hmask : 0x1FF00000000#41 = BitVec.allOnes 9 ++ 0#32 := by decide
  rw [hmask, BitVec.and_append, BitVec.and_allOnes, BitVec.and_zero]

/-- Above cleared data the selector stands shifted by the width of the data. -/
theorem append_zeroData (sel : BitVec 9) : sel ++ 0#32 = sel.setWidth 41 <<< 32 := by
  rw [BitVec.append_def, BitVec.shiftLeftZeroExtend_eq]
  simp

/-- Clearing the data of a transaction word, field by field. -/
theorem mkTxn_and_selectorMask (we : Bool) (off : Byte) (v : Word) :
    mkTxn we off v &&& 0x1FF00000000#41 = mkTxn we off 0 :=
  append_and_selectorMask (BitVec.ofBool we ++ off) v

/-- A selector names no operation, or one register's view in its direction; in neither case does the data word have a
say (R102). -/
theorem decode_selector_cases (m : RegMap) (sel : BitVec 9) :
    (∃ e, ∀ v : Word, decode m (sel ++ v) = .error e) ∨
      ∃ r, ∀ v : Word, decode m (sel ++ v) = .ok (if sel.getLsbD 8 then writeView v r else readView r) := by
  by_cases halign : (sel.extractLsb' 0 8).toNat % 4 = 0
  · cases hr : m.lookup (sel.extractLsb' 0 8) with
    | none => exact .inl ⟨.unmapped, fun v => by
        rw [decode, txnOff_sel_append, if_neg (not_not.mpr halign), hr]⟩
    | some r => exact .inr ⟨r, decode_selector hr halign⟩
  · exact .inl ⟨.badAccess, fun v => by rw [decode, txnOff_sel_append, if_pos halign]⟩

/-- An offset that is no multiple of 4 names no operation (R101). -/
theorem decode_misaligned {off : Byte} (h : off.toNat % 4 ≠ 0) (m : RegMap) (we : Bool) (v : Word) :
    decode m (mkTxn we off v) = .error .badAccess := by
  rw [decode_mkTxn, if_pos h]

/-- An aligned offset at which no register stands names no operation (R101). -/
theorem decode_unmapped {m : RegMap} {off : Byte} (h4 : off.toNat % 4 = 0) (h : ∀ r, m.off r ≠ off) (we : Bool)
    (v : Word) : decode m (mkTxn we off v) = .error .unmapped := by
  rw [decode_mkTxn, if_neg (not_not.mpr h4), RegMap.lookup_eq_none.mpr h]

/-- The 13 default offsets (R104). -/
theorem RegMap.std_off_mem (r : Reg) :
    (RegMap.std.off r).toNat ∈
      [0x00, 0x04, 0x40, 0x44, 0x48, 0x4C, 0x50, 0x54, 0x58, 0x5C, 0x60, 0x64, 0x68] := by
  cases r <;> decide

/-- Settles O2: each of the 26 selectors is a register's default offset with a direction; a further offset is no
multiple of 4 or is no register's. -/
theorem operationMapInFull : Obligations.OperationMapInFull := by
  refine ⟨fun v => ?_, fun we off v => ⟨fun h => decode_misaligned h _ we v, fun h4 hnot => ?_⟩, rfl, rfl⟩
  · have rd (r : Reg) : decode RegMap.std (mkTxn false (RegMap.std.off r) v) = .ok (readView r) :=
      decode_at RegMap.std_wf false r v
    have wr (r : Reg) : decode RegMap.std (mkTxn true (RegMap.std.off r) v) = .ok (writeView v r) :=
      decode_at RegMap.std_wf true r v
    exact ⟨rd .sel0, wr .sel0, rd .sel1, wr .sel1, rd .data, wr .data, rd .ier, wr .ier, rd .iirFcr, wr .iirFcr,
      rd .lcr, wr .lcr, rd .mcr, wr .mcr, rd .lsr, wr .lsr, rd .msr, wr .msr, rd .scr, wr .scr, rd .cntl, wr .cntl,
      rd .stat, wr .stat, rd .baud, wr .baud⟩
  · exact decode_unmapped h4 (fun r hr => hnot (hr ▸ RegMap.std_off_mem r)) we v

/-- Settles O4: the word of an operation has the decoded word's direction and offset, and its data only for a write. -/
theorem encodeRestoresDecodedWord : Obligations.EncodeRestoresDecodedWord := by
  intro m t i h
  obtain ⟨hoff, hwe, hwrite, hread⟩ := decode_ok h
  have henc : encode m i = mkTxn (txnWe t) (txnOff t) i.wdata := by rw [encode, hoff, hwe]
  constructor
  · intro hbit
    rw [henc, hwrite hbit, mkTxn_fields]
  · intro hbit
    calc encode m i
        = mkTxn (txnWe t) (txnOff t) 0 := by rw [henc, hread hbit]
      _ = mkTxn (txnWe t) (txnOff t) (txnData t) &&& 0x1FF00000000#41 := (mkTxn_and_selectorMask _ _ _).symm
      _ = t &&& 0x1FF00000000#41 := by rw [mkTxn_fields]

/-- Settles O5, by the two kinds of selector. -/
theorem selectorAloneDeterminesOperation : Obligations.SelectorAloneDeterminesOperation := by
  intro m sel v w
  refine ⟨by rw [append_and_selectorMask, append_zeroData], ?_⟩
  obtain ⟨e, herr⟩ | ⟨r, hok⟩ := decode_selector_cases m sel
  · rw [herr v, herr w]
    exact ⟨fun _ h => h, fun _ h => (nomatch h)⟩
  · rw [hok v, hok w]
    refine ⟨fun _ h => (nomatch h), fun i hi => ⟨_, rfl, ?_⟩⟩
    cases hi
    cases sel.getLsbD 8 <;> simp [Instr.reg, Instr.we, Instr.wdata]

/-- Settles O1: closed words, evaluated. -/
theorem writtenOutWordsDecode : Obligations.WrittenOutWordsDecode := by
  unfold Obligations.WrittenOutWordsDecode
  decide

end Sys2Proof

namespace Sys2Proof.Machine

/-! ### The first check that fails -/

/-- The first of the four checks, in the order F3, F2, F1, F6, that a transaction at an offset fails, if any
(R140, R141). -/
def State.firstFault (off : Byte) (s : State) : Option FaultCode :=
  if off.toNat % 4 ≠ 0 then some .f3
  else if off ∉ Reg.all.map s.cfg.map.off then some .f2
  else if off ≠ s.cfg.map.offSel0 ∧ off ≠ s.cfg.map.offSel1 ∧ s.usel = false then some .f1
  else if (off = s.cfg.map.offData ∨ off = s.cfg.map.offIer) ∧ s.blk.lcr.getLsbD 7 = true then some .f6
  else none

/-- A transaction that faults, in either direction (R140, R141). -/
def faultTxn (c : FaultCode) (we : Bool) (off : Byte) (v : Word) (s : State) : State :=
  if we then faultWrite c off v s else faultRead c off s

/-- A transaction whose word names no operation faults with the code of the error (R133). -/
theorem busTxn_of_decode_error {e : DecodeError} {we : Bool} {off : Byte} {v : Word} {s : State}
    (h : decode s.cfg.map (mkTxn we off v) = .error e) :
    busTxn (mkTxn we off v) s = .next (faultTxn (errorCode e) we off v s) := by
  simp [busTxn, h, badTxn, faultTxn]

/-- A faulting transaction records its code and its two events, and leaves the block and the refusals alone. -/
theorem faultTxn_record (c : FaultCode) (we : Bool) (off : Byte) (v : Word) (s : State) :
    (faultTxn c we off v s).blk = s.blk ∧ (faultTxn c we off v s).fault = s.fault.add c ∧
      (faultTxn c we off v s).refused = s.refused ∧
      ∃ d, (faultTxn c we off v s).hist = s.hist ++ [.fault c, .bus we off d] ∧ (we = true → d = v) := by
  cases we with
  | false =>
    rw [faultTxn, if_neg Bool.false_ne_true, faultRead_eq]
    exact ⟨rfl, rfl, rfl, _, rfl, fun h => nomatch h⟩
  | true =>
    rw [faultTxn, if_pos rfl, faultWrite_eq]
    exact ⟨rfl, rfl, rfl, v, rfl, fun _ => rfl⟩

/-- A transaction at an offset that is no multiple of 4 is F3 (R140, R141). -/
theorem busTxn_misaligned {off : Byte} (h : off.toNat % 4 ≠ 0) (we : Bool) (v : Word) (s : State) :
    busTxn (mkTxn we off v) s = .next (faultTxn .f3 we off v s) :=
  busTxn_of_decode_error (decode_misaligned h _ we v)

/-- A transaction at an aligned offset where no register stands is F2 (R140, R141). -/
theorem busTxn_unmapped {off : Byte} {s : State} (h4 : off.toNat % 4 = 0) (h : ∀ r, s.cfg.map.off r ≠ off)
    (we : Bool) (v : Word) : busTxn (mkTxn we off v) s = .next (faultTxn .f2 we off v s) :=
  busTxn_of_decode_error (decode_unmapped h4 h we v)

/-- The operation of a register in a direction is one access of that register. -/
theorem exec_view (we : Bool) (r : Reg) (v : Word) (s : State) :
    exec (if we then writeView v r else readView r) s =
      if we then busWrite r (writeFn r) v s else busRead r (readFn r) s := by
  cases we <;> simp [exec_eq, Instr.we, Instr.reg, Instr.wdata]

/-- An operation whose register's gate is closed is a transaction that faults. -/
theorem exec_view_fault {r : Reg} {s : State} {c : FaultCode} (h : s.gateFault r = some c) (we : Bool) (v : Word) :
    exec (if we then writeView v r else readView r) s = .next (faultTxn c we (s.cfg.map.off r) v s) := by
  rw [exec_view, busWrite_fault _ v h, busRead_fault _ h, faultTxn]
  cases we <;> rfl

/-- A fault set in which the codes F4 and F5 may differ, and no other. -/
def FaultSet.SameButOverflow (q q' : FaultSet) : Prop := q' = { q with f4 := q'.f4, f5 := q'.f5 }

/-- A read-view records no fault of its own but F5. -/
theorem readFn_fault (r : Reg) (s : State) : s.fault.SameButOverflow (readFn r s).2.fault := by
  rcases readFn_cases r s with h | h | h | ⟨-, -, h⟩ | ⟨-, _, _, -, h⟩ | ⟨-, h⟩ <;> rw [h] <;> rfl

/-- A write-view records no fault of its own but F4. -/
theorem writeFn_fault (r : Reg) (v : Word) (s : State) : s.fault.SameButOverflow (writeFn r v s).fault := by
  rcases writeFn_cases r v s with h | ⟨_, -, h | ⟨_, h⟩⟩ | ⟨-, -, h⟩ | ⟨-, -, h⟩ | ⟨_, _, h⟩ <;> rw [h] <;> rfl

/-- An operation whose register's gate is open completes, and of the fault codes only F4 and F5 can be its own. -/
theorem exec_view_open {r : Reg} {s : State} (h : s.gateFault r = none) (we : Bool) (v : Word) :
    ∃ s', exec (if we then writeView v r else readView r) s = .next s' ∧ s.fault.SameButOverflow s'.fault := by
  rw [exec_view, busWrite_open _ v h, busRead_open _ h]
  cases we with
  | false => exact ⟨_, rfl, readFn_fault r s⟩
  | true => exact ⟨_, rfl, writeFn_fault r v s⟩

/-- A transaction that fails no check is at a register's offset. -/
theorem State.exists_off_of_firstFault {off : Byte} {s : State} (h : s.firstFault off = none) :
    ∃ r, s.cfg.map.off r = off := by
  have hmem : off ∈ Reg.all.map s.cfg.map.off := by
    by_contra hno
    rw [State.firstFault, if_pos hno] at h
    split at h <;> cases h
  obtain ⟨r, -, hr⟩ := List.mem_map.mp hmem
  exact ⟨r, hr⟩

section Mapped

variable {s : State} (hmap : s.cfg.map.wf = true)
include hmap

/-- At a register's offset the first two checks pass and the other two are the register's gate: the offset tells the
registers apart. -/
theorem State.firstFault_off (r : Reg) : s.firstFault (s.cfg.map.off r) = s.gateFault r := by
  have hoff (q : Reg) : s.cfg.map.off r = s.cfg.map.off q ↔ r = q :=
    ⟨RegMap.off_injective hmap, congrArg s.cfg.map.off⟩
  have hgated : r.gated = true ↔ r ≠ .sel0 ∧ r ≠ .sel1 := by cases r <;> decide
  have haligned : ¬ (s.cfg.map.off r).toNat % 4 ≠ 0 := not_not.mpr (RegMap.off_aligned hmap r)
  have hmem : ¬ s.cfg.map.off r ∉ Reg.all.map s.cfg.map.off :=
    not_not.mpr (List.mem_map_of_mem (Reg.mem_all r))
  rw [State.firstFault, if_neg haligned, if_neg hmem, State.gateFault]
  have hsel0 : s.cfg.map.off r = s.cfg.map.offSel0 ↔ r = .sel0 := hoff .sel0
  have hsel1 : s.cfg.map.off r = s.cfg.map.offSel1 ↔ r = .sel1 := hoff .sel1
  have hdata : s.cfg.map.off r = s.cfg.map.offData ↔ r = .data := hoff .data
  have hier : s.cfg.map.off r = s.cfg.map.offIer ↔ r = .ier := hoff .ier
  simp [hsel0, hsel1, hdata, hier, hgated, State.dlab, and_assoc]

/-- A transaction that fails a check is the faulting one of the first check it fails. -/
theorem busTxn_of_firstFault {off : Byte} {c : FaultCode} (h : s.firstFault off = some c) (we : Bool) (v : Word) :
    busTxn (mkTxn we off v) s = .next (faultTxn c we off v s) := by
  by_cases h4 : off.toNat % 4 ≠ 0
  · rw [State.firstFault, if_pos h4] at h
    cases h
    exact busTxn_misaligned h4 we v s
  · by_cases hmem : off ∈ Reg.all.map s.cfg.map.off
    · obtain ⟨r, -, rfl⟩ := List.mem_map.mp hmem
      have hgate : s.gateFault r = some c := State.firstFault_off hmap r ▸ h
      rw [busTxn_of_decode (decode_at hmap we r v), exec_view_fault hgate]
    · have hno (r : Reg) : s.cfg.map.off r ≠ off := fun hr => hmem (hr ▸ List.mem_map_of_mem (Reg.mem_all r))
      rw [State.firstFault, if_neg h4, if_pos hmem] at h
      cases h
      exact busTxn_unmapped (not_not.mp h4) hno we v

/-- A transaction that fails no check performs the operation its word names. -/
theorem busTxn_of_no_firstFault {off : Byte} (h : s.firstFault off = none) (we : Bool) (v : Word) :
    ∃ i s', decode s.cfg.map (mkTxn we off v) = .ok i ∧ exec i s = .next s' ∧
      s.fault.SameButOverflow s'.fault := by
  obtain ⟨r, rfl⟩ := State.exists_off_of_firstFault h
  have hgate : s.gateFault r = none := State.firstFault_off hmap r ▸ h
  obtain ⟨s', hexec, hfault⟩ := exec_view_open hgate we v
  exact ⟨_, s', decode_at hmap we r v, hexec, hfault⟩

end Mapped

/-- Settles O11, by the first check that fires, if one does. -/
theorem firstFailingCheckDecides : Obligations.FirstFailingCheckDecides := by
  intro we off v s hwf fired
  obtain ⟨-, -, hmap, -⟩ := Cfg.wf_iff.mp hwf
  have hfired : fired = s.firstFault off := rfl
  rw [hfired]
  cases h : s.firstFault off with
  | some c =>
    refine ⟨_, busTxn_of_firstFault hmap h we v, fun d hd => ?_, fun hnone => nomatch hnone⟩
    cases hd
    exact faultTxn_record c we off v s
  | none =>
    obtain ⟨i, s', hdec, hexec, hfault⟩ := busTxn_of_no_firstFault hmap h we v
    exact ⟨s', (busTxn_of_decode hdec).trans hexec, fun _ hsome => (nomatch hsome),
      fun _ => ⟨⟨i, hdec, hexec⟩, hfault⟩⟩

/-! ### The word placed for the next step, and the divisor -/

/-- A number whose low `nbits` form a 41-bit word stands for that word's transaction. -/
theorem opOfTableWord_eq {nbits w : Nat} (h : w % 2 ^ nbits < 2 ^ 41) :
    opOfTableWord nbits w = .bus (BitVec.ofNat 41 (w % 2 ^ nbits)) := by
  rw [opOfTableWord, tableTxn, if_pos h]

/-- Settles O40: the placed operation is the one at the script counter, and the host's turn comes first, as O39
asks. -/
theorem placedWordRunsNext : Obligations.PlacedWordRunsNext := by
  intro s nbits w i hlt hdec
  have hplaced : (s.withFetchWord nbits w).script[(s.withFetchWord nbits w).hpc]? =
      some (.bus (BitVec.ofNat 41 (w % 2 ^ nbits))) := by
    rw [← opOfTableWord_eq hlt]
    exact placeOp_get _ s.hpc s.script
  exact stepRunsTheDecodedInstruction (s.withFetchWord nbits w) s.turns _ i rfl hplaced hdec

/-- The divisor at a baud rate above 0 (R128). -/
theorem divisor_of_pos {baud : Nat} (h : 0 < baud) (clock : Nat) : divisor clock baud = some (clock / 8 / baud) :=
  if_neg h.ne'

/-- A baud rate of 0 has no divisor (log entry 15). -/
theorem divisor_zero (clock : Nat) : divisor clock 0 = none :=
  if_pos rfl

/-- Settles O48: two divisions one after the other are one by the product. -/
theorem divisorFormula : Obligations.DivisorFormula := by
  refine ⟨fun clock baud h => ⟨divisor_of_pos h clock, ?_⟩, divisor_of_pos (by decide) _, divisor_zero, fun c h => ?_⟩
  · rw [divisor_of_pos h, Nat.div_div_eq_div_mul]
  · rw [initFor, h, divisor_zero]

end Sys2Proof.Machine

/-! SUPPORT. Proof of the statement about the end of a transaction (40_bus_dispatch.md): whatever the checks and the view
of a register do first, they record at most one fault and no `Bus` event, and the transaction ends with that event
(R145). -/

namespace Sys2Proof.Machine

/-! ### What is recorded before the `Bus` event -/

/-- The history from `s` to `s'` grew by the events `new`: a single fault event, or events of other kinds, no `Bus`
event among them, with the fault set as it was. -/
inductive Recorded (s s' : State) : List Event → Prop where
  | fault (c : FaultCode) (hist : s'.hist = s.hist ++ [.fault c]) : Recorded s s' [.fault c]
  | other {new : List Event} (hist : s'.hist = s.hist ++ new) (codes : s'.fault = s.fault)
      (noBus : ∀ we off d, Event.bus we off d ∉ new) (noFault : ∀ c, Event.fault c ∉ new) : Recorded s s' new

/-- No event at all. -/
theorem Recorded.nothing {s s' : State} (hist : s'.hist = s.hist) (codes : s'.fault = s.fault) : Recorded s s' [] :=
  .other (hist.trans (List.append_nil _).symm) codes (by simp) (by simp)

section Recorded

variable {s s' : State} {new : List Event} (h : Recorded s s' new)
include h

theorem Recorded.hist_eq : s'.hist = s.hist ++ new := by
  cases h with
  | fault c hist => exact hist
  | other hist => exact hist

theorem Recorded.bus_not_mem (we : Bool) (off : Byte) (d : Word) : Event.bus we off d ∉ new := by
  cases h with
  | fault c => simp
  | other _ _ noBus => exact noBus we off d

theorem Recorded.eq_singleton_of_mem {c : FaultCode} (hc : Event.fault c ∈ new) : new = [.fault c] := by
  cases h with
  | fault d => rw [List.mem_singleton.mp hc]
  | other _ _ _ noFault => exact absurd hc (noFault c)

theorem Recorded.exists_fault_of_ne (hne : s'.fault ≠ s.fault) : ∃ c, new = [Event.fault c] := by
  cases h with
  | fault c => exact ⟨c, rfl⟩
  | other _ codes => exact absurd codes hne

end Recorded

/-- A read-view records F5 or nothing (R172). -/
theorem readFn_recorded (r : Reg) (s : State) : ∃ new, Recorded s (readFn r s).2 new := by
  rcases readFn_cases r s with h | h | h | ⟨-, -, h⟩ | ⟨-, _, _, -, h⟩ | ⟨-, h⟩ <;> rw [h]
  · exact ⟨_, .nothing rfl rfl⟩
  · exact ⟨_, .nothing rfl rfl⟩
  · exact ⟨_, .nothing rfl rfl⟩
  · exact ⟨_, .fault .f5 rfl⟩
  · exact ⟨_, .nothing rfl rfl⟩
  · exact ⟨_, .nothing rfl rfl⟩

/-- A write-view records F4 (R174), a refusal (R121), a clear of the queues (R197), or nothing. -/
theorem writeFn_recorded (r : Reg) (v : Word) (s : State) : ∃ new, Recorded s (writeFn r v s) new := by
  rcases writeFn_cases r v s with h | ⟨b, -, h | ⟨c, h⟩⟩ | ⟨-, -, h⟩ | ⟨-, -, h⟩ | ⟨rx, tx, h⟩ <;> rw [h]
  · exact ⟨_, .nothing rfl rfl⟩
  · exact ⟨_, .nothing rfl rfl⟩
  · exact ⟨[.refuse c], .other rfl rfl (by simp) (by simp)⟩
  · exact ⟨_, .fault .f4 rfl⟩
  · exact ⟨_, .nothing rfl rfl⟩
  · exact ⟨[.fifoClr rx tx], .other rfl rfl (by simp) (by simp)⟩

/-! ### The transaction, from its checks to its end -/

/-- The end of a transaction in either direction: its `Bus` event, and for a read the word in `acc` (R22, R145). -/
def State.endTxn (we : Bool) (off : Byte) (v : Word) (s : State) : State :=
  if we then s.endWrite off v else s.endRead off v

theorem State.endTxn_hist (we : Bool) (off : Byte) (v : Word) (s : State) :
    (s.endTxn we off v).hist = s.hist ++ [.bus we off v] := by
  cases we <;> rfl

theorem State.endTxn_fault (we : Bool) (off : Byte) (v : Word) (s : State) : (s.endTxn we off v).fault = s.fault := by
  cases we <;> rfl

theorem State.endTxn_acc (off : Byte) (v : Word) (s : State) : (s.endTxn false off v).acc = some v := rfl

/-- The result of a transaction from `s` is a next state, reached by recording as `Recorded` allows and then ending
with the word `v`; the word a write ends with is its data. -/
def Completes (we : Bool) (off : Byte) (data : Word) (s : State) (res : Result) : Prop :=
  ∃ mid new v, Recorded s mid new ∧ (we = true → v = data) ∧ res = .next (mid.endTxn we off v)

/-- A transaction that faults records its code and ends (R140, R141). -/
theorem faultTxn_completes (c : FaultCode) (we : Bool) (off : Byte) (v : Word) (s : State) :
    Completes we off v s (.next (faultTxn c we off v s)) := by
  cases we with
  | false => exact ⟨(s.raise c).drew, _, _, .fault c rfl, fun h => (nomatch h), rfl⟩
  | true => exact ⟨s.raise c, _, v, .fault c rfl, fun _ => rfl, rfl⟩

/-- An operation completes at its register's offset: it meets a closed gate and faults, or performs its view. -/
theorem exec_view_completes (we : Bool) (r : Reg) (v : Word) (s : State) :
    Completes we (s.cfg.map.off r) v s (exec (if we then writeView v r else readView r) s) := by
  cases hgate : s.gateFault r with
  | some c =>
    rw [exec_view_fault hgate]
    exact faultTxn_completes c we _ v s
  | none =>
    rw [exec_view, busWrite_open _ v hgate, busRead_open _ hgate]
    cases we with
    | false =>
      obtain ⟨new, hrec⟩ := readFn_recorded r s
      exact ⟨_, new, _, hrec, fun h => (nomatch h), rfl⟩
    | true =>
      obtain ⟨new, hrec⟩ := writeFn_recorded r v s
      exact ⟨_, new, v, hrec, fun _ => rfl, rfl⟩

/-- Every transaction completes, whatever the map: its offset is misaligned, unmapped, or that of the register the map
answers. -/
theorem busTxn_completes (we : Bool) (off : Byte) (v : Word) (s : State) :
    Completes we off v s (busTxn (mkTxn we off v) s) := by
  by_cases h4 : off.toNat % 4 ≠ 0
  · rw [busTxn_misaligned h4]
    exact faultTxn_completes .f3 we off v s
  · cases hlook : s.cfg.map.lookup off with
    | none =>
      rw [busTxn_unmapped (not_not.mp h4) (RegMap.lookup_eq_none.mp hlook)]
      exact faultTxn_completes .f2 we off v s
    | some r =>
      have hdec : decode s.cfg.map (mkTxn we off v) = .ok (if we then writeView v r else readView r) := by
        rw [decode_mkTxn, if_neg h4, hlook]
      rw [busTxn_of_decode hdec, ← RegMap.off_of_lookup hlook]
      exact exec_view_completes we r v s

/-- Settles O12: a word is its three fields, and a transaction that completes has recorded at most one fault before it
ended. -/
theorem oneBusEventEndsEveryTransaction : Obligations.OneBusEventEndsEveryTransaction := by
  intro t s
  obtain ⟨mid, new, v, hrec, hdata, hres⟩ := busTxn_completes (txnWe t) (txnOff t) (txnData t) s
  rw [mkTxn_fields] at hres
  refine ⟨_, new, v, hres, ?hist, hrec.bus_not_mem, hdata, ?acc, fun c => hrec.eq_singleton_of_mem, ?fault⟩
  case hist =>
    rw [State.endTxn_hist, hrec.hist_eq]
    rfl
  case acc =>
    intro hread
    have hwe : txnWe t = false := hread
    rw [hwe]
    exact State.endTxn_acc _ v mid
  case fault =>
    intro hne
    exact hrec.exists_fault_of_ne (State.endTxn_fault _ _ v mid ▸ hne)

end Sys2Proof.Machine

/-! SUPPORT. Proofs of the statements about the mux/enable pair (41_select_pair.md): the accesses of word `k` of the
pair for both values of `k`, by whether `SEL_WORD` makes it the select word or its companion (R160 to R164). -/

namespace Sys2Proof.Machine

/-- The register that is word `k` of the pair (R160). -/
def selReg : Fin 2 → Reg
  | 0 => .sel0
  | 1 => .sel1

/-- A read of word `k` of the pair passes no gate (R160). -/
theorem exec_readView_selReg (k : Fin 2) (s : State) : exec (readView (selReg k)) s =
    .next ((readSel k s).2.endRead (s.cfg.map.off (selReg k)) (readSel k s).1) :=
  match k with
  | 0 => busRead_open (readSel 0) (gateFault_sel0 s)
  | 1 => busRead_open (readSel 1) (gateFault_sel1 s)

/-- A write of word `k` of the pair passes no gate (R160). -/
theorem exec_writeView_selReg (k : Fin 2) (v : Word) (s : State) : exec (writeView v (selReg k)) s =
    .next ((writeSel k v s).endWrite (s.cfg.map.off (selReg k)) v) :=
  match k with
  | 0 => busWrite_open (writeSel 0) v (gateFault_sel0 s)
  | 1 => busWrite_open (writeSel 1) v (gateFault_sel1 s)

section Roles

variable {k : Fin 2} {s : State}

/-! ### The word that `SEL_WORD` names is the select word (R161, R162) -/

/-- The view zero-extends its 32 stored bits, and keeps them all (R161). -/
theorem readSel_select (h : s.cfg.selWord = k) : readSel k s = (s.blk.selw, s) := by
  rw [readSel, if_pos h, readSelw, readStored, zext, BitVec.setWidth_eq]

theorem writeSel_select (h : s.cfg.selWord = k) (v : Word) :
    writeSel k v s = s.setBlk { s.blk with selw := v } :=
  if_pos h

theorem exec_read_select (h : s.cfg.selWord = k) : exec (readView (selReg k)) s = .next { s with
    acc := some s.blk.selw, hist := s.hist ++ [.bus false (s.cfg.map.off (selReg k)) s.blk.selw] } := by
  rw [exec_readView_selReg, readSel_select h]
  rfl

theorem exec_write_select (h : s.cfg.selWord = k) (v : Word) : exec (writeView v (selReg k)) s = .next { s with
    blk := { s.blk with selw := v }, hist := s.hist ++ [.bus true (s.cfg.map.off (selReg k)) v] } := by
  rw [exec_writeView_selReg, writeSel_select h]
  rfl

/-! ### The other word is the companion (R163, R164) -/

theorem readSel_companion (h : s.cfg.selWord ≠ k) : readSel k s = (s.free 32, s.drew) :=
  if_neg h

theorem writeSel_companion (h : s.cfg.selWord ≠ k) (v : Word) : writeSel k v s = s :=
  if_neg h

theorem exec_read_companion (h : s.cfg.selWord ≠ k) : exec (readView (selReg k)) s = .next { s with
    acc := some (Config.draw 32 s.draws), draws := s.draws + 1,
    hist := s.hist ++ [.bus false (s.cfg.map.off (selReg k)) (Config.draw 32 s.draws)] } := by
  rw [exec_readView_selReg, readSel_companion h]
  rfl

theorem exec_write_companion (h : s.cfg.selWord ≠ k) (v : Word) : exec (writeView v (selReg k)) s = .next { s with
    hist := s.hist ++ [.bus true (s.cfg.map.off (selReg k)) v] } := by
  rw [exec_writeView_selReg, writeSel_companion h]
  rfl

end Roles

/-- Settles O13: the select word is word 1 or word 0 of the pair. -/
theorem selectWordReads : Obligations.SelectWordReads :=
  ⟨decode_at RegMap.std_wf false .sel1 0, fun _ =>
    ⟨exec_read_select (k := 1), exec_read_select (k := 0)⟩⟩

/-- Settles O14: the select word is word 1 or word 0 of the pair, and `USEL` is read from the word stored. -/
theorem selectWordWrites : Obligations.SelectWordWrites :=
  ⟨decode_at RegMap.std_wf true .sel1, fun v _ =>
    ⟨fun h => ⟨_, exec_write_select (k := 1) h v, rfl, rfl⟩,
      fun h => ⟨_, exec_write_select (k := 0) h v, rfl, rfl⟩⟩⟩

/-- Settles O15: the companion is the word of the pair that `SEL_WORD` does not name. -/
theorem companionWordDrawsAndIgnores : Obligations.CompanionWordDrawsAndIgnores := by
  refine ⟨decode_at RegMap.std_wf false .sel0 0, decode_at RegMap.std_wf true .sel0, fun v s =>
    ⟨fun hsel => ?word0, fun hsel => ?word1⟩⟩
  case word0 =>
    have hne : s.cfg.selWord ≠ 0 := by simp [hsel]
    exact ⟨exec_read_companion hne, exec_write_companion hne v⟩
  case word1 =>
    have hne : s.cfg.selWord ≠ 1 := by simp [hsel]
    exact ⟨exec_read_companion hne, exec_write_companion hne v⟩

end Sys2Proof.Machine

/-! SUPPORT. Proofs of the statements about the data register (42_data_register.md): the accesses of `DATA` that pass the
gate (R170 to R174), and what a poll of line status promises of the queues. The transmit queue grows by a write of `DATA`
or a `RESET` only (R175), the receive queue shrinks by a read of `DATA`, a clear or a `RESET` only (R176), so a run
without those events keeps what the poll saw. -/

namespace Sys2Proof.Machine

/-! ### The accesses of `DATA` that pass the gate -/

section PassesGate

variable {s : State} (hsel : s.usel = true) (hflag : s.blk.lcr.getLsbD 7 = false)
include hsel hflag

/-- The oldest unread character is removed and returned (R170). -/
theorem exec_rdRbr_cons {c : Byte} {rest : List Byte} (hq : s.blk.rxq = c :: rest) : exec .rdRbr s = .next { s with
    blk := { s.blk with rxq := rest }, acc := some (zext c),
    hist := s.hist ++ [.bus false s.cfg.map.offData (zext c)] } := by
  have hview : readRbr s = (zext c, s.setBlk { s.blk with rxq := rest }) := by rw [readRbr, hq]
  rw [exec, execRdRbr, busRead_open readRbr (gateFault_clear hsel hflag), hview]
  rfl

/-- With no character the read is F5 and returns a draw (R172). -/
theorem exec_rdRbr_nil (hq : s.blk.rxq = []) : exec .rdRbr s = .next { s with
    fault := s.fault.add .f5, acc := some (zext (Config.draw 8 s.draws)), draws := s.draws + 1,
    hist := s.hist ++ [.fault .f5, .bus false s.cfg.map.offData (zext (Config.draw 8 s.draws))] } := by
  have hview : readRbr s = (zext ((s.raise .f5).free 8), (s.raise .f5).drew) := by rw [readRbr, hq]
  rw [exec, execRdRbr, busRead_open readRbr (gateFault_clear hsel hflag), hview]
  simp [State.endRead, State.raise, State.addFault, State.log, State.drew, State.setAcc, State.free, RegMap.off]

/-- With room the low byte joins the tail of the transmit queue (R173). -/
theorem exec_wrThr_room (v : Word) (hroom : s.blk.txq.length ≠ s.cfg.txDepth) : exec (.wrThr v) s = .next { s with
    blk := { s.blk with txq := s.blk.txq ++ [truncTo 8 v] },
    hist := s.hist ++ [.bus true s.cfg.map.offData v] } := by
  rw [exec, execWrThr, busWrite_open writeThr v (gateFault_clear hsel hflag), writeThr, if_neg hroom]
  rfl

/-- With no room the write is F4 and the character is discarded (R174). -/
theorem exec_wrThr_full (v : Word) (hfull : s.blk.txq.length = s.cfg.txDepth) : exec (.wrThr v) s = .next { s with
    fault := s.fault.add .f4, hist := s.hist ++ [.fault .f4, .bus true s.cfg.map.offData v] } := by
  rw [exec, execWrThr, busWrite_open writeThr v (gateFault_clear hsel hflag), writeThr, if_pos hfull]
  simp [State.endWrite, State.raise, State.addFault, State.log, RegMap.off]

end PassesGate

/-- Settles O16: the read answers the head of the queue, or F5 and a draw. -/
theorem receiveBufferReads : Obligations.ReceiveBufferReads :=
  ⟨decode_at RegMap.std_wf false .data 0, fun _ hsel hflag =>
    ⟨fun _ _ hq => exec_rdRbr_cons hsel hflag hq, fun hq => exec_rdRbr_nil hsel hflag hq⟩⟩

/-- Settles O17: the written byte lengthens the queue by one, so that it is not empty, or there was no room. -/
theorem transmitHoldingWrites : Obligations.TransmitHoldingWrites := by
  refine ⟨decode_at RegMap.std_wf true .data, fun v s hsel hflag =>
    ⟨fun hroom => ?room, fun hfull => exec_wrThr_full hsel hflag v hfull⟩⟩
  case room =>
    refine ⟨_, exec_wrThr_room hsel hflag v hroom, by rw [truncTo_eq], ?_, ?_⟩
    · simp [State.thre]
    · simp [State.temt]

/-! ### What a poll of line status sees -/

/-- `RD_LSR` while selected returns the line-status word, and leaves the configuration and both queues alone (R222). -/
theorem exec_rdLsr_poll {s s0 : State} (hsel : s.usel = true) (h : exec .rdLsr s = .next s0) :
    s0.acc = some s.lsrWord ∧ s0.cfg = s.cfg ∧ s0.blk.txq = s.blk.txq ∧ s0.blk.rxq = s.blk.rxq := by
  rw [exec, execRdLsr, busRead_open readLsr (gateFault_other hsel (by decide) (by decide))] at h
  cases h
  cases hcor : s.cfg.lsrCor <;> simp [readLsr, hcor]

/-- Bit 5 of the polled word is `THRE`, which in a state of the invariant promises room (R11, R175). -/
theorem poll_room {s s0 : State} {v : Word} (hinv : s.inv = true) (hsel : s.usel = true)
    (hpoll : exec .rdLsr s = .next s0) (hacc : s0.acc = some v) (hbit : v.getLsbD 5 = true) :
    s0.cfg = s.cfg ∧ s0.blk.txq.length < s.cfg.txDepth := by
  obtain ⟨hword, hcfg, htxq, -⟩ := exec_rdLsr_poll hsel hpoll
  obtain rfl : s.lsrWord = v := Option.some.inj (hword.symm.trans hacc)
  obtain ⟨-, -, -, -, -, hthre, -⟩ := lsrWord_bits s
  have hle : s.blk.txq.length ≤ s.cfg.threLevel := of_decide_eq_true (hthre.symm.trans hbit)
  obtain ⟨-, -, -, -, -, hlevel, -⟩ := Cfg.wf_iff.mp (State.inv_iff.mp hinv).1
  exact ⟨hcfg, htxq ▸ hle.trans_lt hlevel⟩

/-- Bit 0 of the polled word is `DR`: a character is queued (R176). -/
theorem poll_data {s s0 : State} {v : Word} (hsel : s.usel = true) (hpoll : exec .rdLsr s = .next s0)
    (hacc : s0.acc = some v) (hbit : v.getLsbD 0 = true) : s0.cfg = s.cfg ∧ 0 < s0.blk.rxq.length := by
  obtain ⟨hword, hcfg, -, hrxq⟩ := exec_rdLsr_poll hsel hpoll
  obtain rfl : s.lsrWord = v := Option.some.inj (hword.symm.trans hacc)
  have hdr : 0 < s.blk.rxq.length := of_decide_eq_true ((lsrWord_bits s).1.symm.trans hbit)
  exact ⟨hcfg, hrxq ▸ hdr⟩

/-! ### What lengthens the transmit queue (R175) -/

/-- The events of the steps that can lengthen the transmit queue: a write of `DATA` and a `RESET`. -/
def FillsTxq (c : Cfg) (e : Event) : Prop := (∃ d, e = .bus true c.map.offData d) ∨ e = .reset

/-- A step without those events leaves the transmit queue as long as it was, or shortens it: it loads the head into the
shifter or clears the queue. -/
theorem Effect.txq_length_le {s s' : State} {new : List Event} (e : Effect s s' new)
    (hno : ∀ ev ∈ new, ¬ FillsTxq s.cfg ev) : s'.blk.txq.length ≤ s.blk.txq.length := by
  cases e with
  | push v ev => exact absurd (.inl ⟨v, rfl⟩) (hno _ ev)
  | reset ev => exact absurd (.inr rfl) (hno _ ev)
  | load c rest _ had blk => simp [blk, had]
  | fifoClr rx tx _ blk => cases tx <;> simp [blk]
  | quiet blk => rw [blk]
  | store _ _ _ blk => rw [blk]
  | pop _ _ _ _ _ blk => rw [blk]
  | clearErrors blk => rw [blk]
  | emit _ _ _ blk => rw [blk]
  | arrive _ _ blk => rw [blk]

/-- A run without those events does not lengthen the transmit queue. -/
theorem run_txq_length_le {k : Nat} {s s' : State} (h : Host.Core.run core k s = .next s')
    (hno : ∀ ev ∈ s'.hist.drop s.hist.length, ¬ FillsTxq s.cfg ev) : s'.blk.txq.length ≤ s.blk.txq.length :=
  run_keeps (fun t => t.blk.txq.length ≤ s.blk.txq.length) (FillsTxq s.cfg) s.cfg
    (fun _ _ _ hcfg _ e hno hle => (e.txq_length_le (hcfg ▸ hno)).trans hle) k rfl h le_rfl hno

/-- Settles O58: the poll saw room, and the run does not lengthen the queue. -/
theorem roomPersistsAfterPoll : Obligations.RoomPersistsAfterPoll := by
  intro s s0 s' v k hinv hsel hpoll hacc hbit hrun hwrite hreset
  obtain ⟨hcfg, hroom⟩ := poll_room hinv hsel hpoll hacc hbit
  obtain ⟨_, grows⟩ := run_grows k hrun
  have hle : s'.blk.txq.length ≤ s0.blk.txq.length := by
    refine run_txq_length_le hrun ?_
    rintro ev hev (⟨d, rfl⟩ | rfl)
    · exact hwrite d (hcfg ▸ hev)
    · exact hreset hev
  rw [grows.cfg, hcfg]
  exact hle.trans_lt hroom

/-! ### What shortens the receive queue (R176) -/

/-- The events of the steps that can shorten the receive queue: a read of `DATA`, a clear of that queue and a
`RESET`. -/
def DrainsRxq (c : Cfg) (e : Event) : Prop :=
  (∃ d, e = .bus false c.map.offData d) ∨ (∃ tx, e = .fifoClr true tx) ∨ e = .reset

/-- A step without those events leaves the receive queue as long as it was, or lengthens it: an overrun replaces the
newest character and does not remove it (R265). -/
theorem Effect.rxq_length_le {s s' : State} {new : List Event} (e : Effect s s' new)
    (hno : ∀ ev ∈ new, ¬ DrainsRxq s.cfg ev) : s.blk.rxq.length ≤ s'.blk.rxq.length := by
  cases e with
  | pop c rest v ev => exact absurd (.inl ⟨v, rfl⟩) (hno _ ev)
  | reset ev => exact absurd (.inr (.inr rfl)) (hno _ ev)
  | fifoClr rx tx ev blk =>
    cases rx with
    | true => exact absurd (.inr (.inl ⟨tx, rfl⟩)) (hno _ ev)
    | false => simp [blk]
  | arrive m q =>
    obtain ⟨-, hq⟩ | hq | ⟨-, hq⟩ := q <;> rw [hq]
    · simp
    · rw [List.length_append, List.length_dropLast, List.length_singleton]
      omega
  | quiet blk => rw [blk]
  | store _ _ _ blk => rw [blk]
  | push _ _ _ blk => rw [blk]
  | clearErrors blk => rw [blk]
  | load _ _ _ _ blk => rw [blk]
  | emit _ _ _ blk => rw [blk]

/-- A run without those events does not shorten the receive queue. -/
theorem run_rxq_length_le {k : Nat} {s s' : State} (h : Host.Core.run core k s = .next s')
    (hno : ∀ ev ∈ s'.hist.drop s.hist.length, ¬ DrainsRxq s.cfg ev) : s.blk.rxq.length ≤ s'.blk.rxq.length :=
  run_keeps (fun t => s.blk.rxq.length ≤ t.blk.rxq.length) (DrainsRxq s.cfg) s.cfg
    (fun _ _ _ hcfg _ e hno hle => hle.trans (e.rxq_length_le (hcfg ▸ hno))) k rfl h le_rfl hno

/-- Settles O59: the poll saw a character, and the run does not shorten the queue. -/
theorem dataPersistsAfterPoll : Obligations.DataPersistsAfterPoll := by
  intro s s0 s' v k hsel hpoll hacc hbit hrun hread hclear hreset
  obtain ⟨hcfg, hdata⟩ := poll_data hsel hpoll hacc hbit
  refine hdata.trans_le (run_rxq_length_le hrun ?_)
  rintro ev hev (⟨d, rfl⟩ | ⟨tx, rfl⟩ | rfl)
  · exact hread d (hcfg ▸ hev)
  · exact hclear tx hev
  · exact hreset hev

end Sys2Proof.Machine

/-! SUPPORT. Proofs of the statements about interrupt enable, interrupt identification and FIFO control
(43_interrupt_fifo_control.md): the accesses of `IER` that pass the gate (R190, R191), the identification word by the
priority of the pending sources (R194, R330), and the clear pulses of `FCR` (R197). -/

namespace Sys2Proof.Machine

/-! ### The interrupt conditions (R330) -/

theorem pending1_iff (s : State) : s.pending1 = true ↔ s.blk.ier.getLsbD 2 = true ∧
    (s.blk.oe = true ∨ s.blk.pe = true ∨ s.blk.fe = true ∨ s.blk.bi = true) := by
  simp [State.pending1, or_assoc]

theorem pending2_iff (s : State) : s.pending2 = true ↔ s.blk.ier.getLsbD 0 = true ∧ s.blk.rxq ≠ [] := by
  simp [State.pending2, State.dr, List.length_pos_iff]

theorem pending3_iff (s : State) :
    s.pending3 = true ↔ s.blk.ier.getLsbD 1 = true ∧ s.blk.txq.length ≤ s.cfg.threLevel := by
  simp [State.pending3, State.thre]

/-! ### The identification word (R194) -/

/-- The bits of the identification word below its FIFO-state field: `0b00 ++ iid ++ nip`. -/
def State.iirLow (s : State) : BitVec 6 := 0#2 ++ s.iidNip.1 ++ s.iidNip.2

theorem iirWord_eq (s : State) : s.iirWord = zext (s.cfg.fifoState ++ s.iirLow) := by
  rw [State.iirWord, State.iirLow, BitVec.append_assoc', BitVec.append_assoc']
  rfl

theorem iirLow_lineStatus {s : State} (h1 : s.pending1 = true) : s.iirLow = 0b000110#6 := by
  rw [State.iirLow, State.iidNip, if_pos h1]
  rfl

theorem iirLow_receivedData {s : State} (h1 : ¬s.pending1 = true) (h2 : s.pending2 = true) :
    s.iirLow = 0b000100#6 := by
  rw [State.iirLow, State.iidNip, if_neg h1, if_pos h2]
  rfl

theorem iirLow_holdingEmpty {s : State} (h1 : ¬s.pending1 = true) (h2 : ¬s.pending2 = true)
    (h3 : s.pending3 = true) : s.iirLow = 0b000010#6 := by
  rw [State.iirLow, State.iidNip, if_neg h1, if_neg h2, if_pos h3]
  rfl

theorem iirLow_nonePending {s : State} (h1 : ¬s.pending1 = true) (h2 : ¬s.pending2 = true)
    (h3 : ¬s.pending3 = true) : s.iirLow = 0b000001#6 := by
  rw [State.iirLow, State.iidNip, if_neg h1, if_neg h2, if_neg h3]
  rfl

/-- The read answers the identification word and clears nothing. -/
theorem exec_rdIir {s : State} (hsel : s.usel = true) : exec .rdIir s = .next { s with
    acc := some s.iirWord, hist := s.hist ++ [.bus false s.cfg.map.offIirFcr s.iirWord] } := by
  rw [exec, execRdIir, busRead_open readIir (gateFault_other hsel (by decide) (by decide))]
  rfl

/-- Settles O19: the conditions named are the model's, and the low bits follow their priority. -/
theorem interruptIdentificationByPriority : Obligations.InterruptIdentificationByPriority := by
  refine ⟨decode_at RegMap.std_wf false .iirFcr 0, fun s p1 p2 p3 hsel h1 h2 h3 => ?_⟩
  rw [← pending1_iff] at h1
  rw [← pending2_iff] at h2
  rw [← pending3_iff] at h3
  rw [h1, h2, h3]
  refine ⟨s.iirLow, iirLow_lineStatus, iirLow_receivedData, iirLow_holdingEmpty, iirLow_nonePending, ?answer⟩
  case answer =>
    rw [exec_rdIir hsel, iirWord_eq]
    rfl

/-! ### The accesses of `IER` that pass the gate -/

section PassesGate

variable {s : State} (hsel : s.usel = true) (hflag : s.blk.lcr.getLsbD 7 = false)
include hsel hflag

/-- The four stored bits are read back zero-extended (R190). -/
theorem exec_rdIer : exec .rdIer s = .next { s with
    acc := some (zext s.blk.ier), hist := s.hist ++ [.bus false s.cfg.map.offIer (zext s.blk.ier)] } := by
  rw [exec, execRdIer, busRead_open (readStored Block.ier) (gateFault_clear hsel hflag)]
  rfl

/-- Without `EDSSI` the write stores four bits and refuses nothing (R191). -/
theorem exec_wrIer_accepted {v : Word} (hedssi : v.getLsbD 3 = false) : exec (.wrIer v) s = .next { s with
    blk := { s.blk with ier := truncTo 4 v }, hist := s.hist ++ [.bus true s.cfg.map.offIer v] } := by
  rw [exec, execWrIer, busWrite_open writeIer v (gateFault_clear hsel hflag), writeIer, hedssi, refuseIf_false]
  rfl

/-- With `EDSSI` the four bits are stored all the same, and X1 is recorded before the `Bus` event (R191). -/
theorem exec_wrIer_refused {v : Word} (hedssi : v.getLsbD 3 = true) : exec (.wrIer v) s = .next { s with
    blk := { s.blk with ier := truncTo 4 v }, refused := s.refused.add .x1,
    hist := s.hist ++ [.refuse .x1, .bus true s.cfg.map.offIer v] } := by
  rw [exec, execWrIer, busWrite_open writeIer v (gateFault_clear hsel hflag), writeIer, hedssi, refuseIf_true]
  simp [State.endWrite, State.refuse, State.addRefuse, State.setBlk, State.log, RegMap.off]

end PassesGate

/-- Settles O18: the read, and the write by whether it asks for `EDSSI`. -/
theorem interruptEnableReadsAndWrites : Obligations.InterruptEnableReadsAndWrites := by
  refine ⟨decode_at RegMap.std_wf false .ier 0, decode_at RegMap.std_wf true .ier, fun v s hsel hflag =>
    ⟨exec_rdIer hsel hflag, fun hedssi => ?accepted, fun hedssi => ?refused⟩⟩
  case accepted =>
    rw [exec_wrIer_accepted hsel hflag hedssi, truncTo_eq]
  case refused =>
    rw [exec_wrIer_refused hsel hflag hedssi, truncTo_eq]
    rfl

/-! ### The clear pulses of `FCR` (R197) -/

/-- The event of a write of `FCR`: one when a clear bit is 1, and none otherwise. -/
def fcrEvents (v : Word) : List Event :=
  if v.getLsbD 1 = true ∨ v.getLsbD 2 = true then [.fifoClr (v.getLsbD 1) (v.getLsbD 2)] else []

/-- The write changes the two queues and the history, and stores nothing. -/
theorem writeFcr_eq (v : Word) (s : State) : writeFcr v s = { s with
    blk := { s.blk with
      rxq := if v.getLsbD 1 = true then [] else s.blk.rxq,
      txq := if v.getLsbD 2 = true then [] else s.blk.txq },
    hist := s.hist ++ fcrEvents v } := by
  by_cases h : v.getLsbD 1 = true ∨ v.getLsbD 2 = true
  · rw [writeFcr, fcrEvents, if_pos (by simpa using h), if_pos h]
    rfl
  · obtain ⟨hrx, htx⟩ := not_or.mp h
    rw [writeFcr, fcrEvents, if_neg (by simpa using h), if_neg h, if_neg hrx, if_neg htx, List.append_nil]

/-- Settles O20: the mode flag does not gate `FCR`, and the `Bus` event ends the write. -/
theorem fifoControlPulses : Obligations.FifoControlPulses := by
  refine ⟨decode_at RegMap.std_wf true .iirFcr, fun v s hsel => ?_⟩
  rw [exec, execWrFcr, busWrite_open writeFcr v (gateFault_other hsel (by decide) (by decide)), writeFcr_eq]
  rfl

end Sys2Proof.Machine

/-! SUPPORT. Proofs of the statements about line control, modem control, line status, modem status and scratch
(44_line_modem_scratch.md), with the ignored write of auxiliary status (R246): while the UART is selected these
registers answer whatever the mode flag is (R213), so each access is its register's view and one `Bus` event. -/

namespace Sys2Proof.Machine

/-! ### The accesses the mode flag does not gate -/

section Selected

variable {s : State} (hsel : s.usel = true)
include hsel

/-- A read of a register other than `DATA` and `IER` is its read-view (R140). -/
theorem exec_readView_selected {r : Reg} (hdata : r ≠ .data) (hier : r ≠ .ier) : exec (readView r) s =
    .next ((readFn r s).2.endRead (s.cfg.map.off r) (readFn r s).1) := by
  rw [← busRead_open (readFn r) (gateFault_other hsel hdata hier)]
  exact exec_view false r 0 s

/-- A write of a register other than `DATA` and `IER` is its write-view (R141). -/
theorem exec_writeView_selected {r : Reg} (hdata : r ≠ .data) (hier : r ≠ .ier) (v : Word) :
    exec (writeView v r) s = .next ((writeFn r v s).endWrite (s.cfg.map.off r) v) := by
  rw [← busWrite_open (writeFn r) v (gateFault_other hsel hdata hier)]
  exact exec_view true r v s

/-! ### Line control (R210, R211) -/

/-- The eight stored bits are read back zero-extended (R210). -/
theorem exec_rdLcr : exec .rdLcr s = .next { s with
    acc := some (zext s.blk.lcr), hist := s.hist ++ [.bus false s.cfg.map.offLcr (zext s.blk.lcr)] } :=
  exec_readView_selected hsel (r := .lcr) (by decide) (by decide)

theorem exec_wrLcr (v : Word) : exec (.wrLcr v) s = .next ((writeLcr v s).endWrite s.cfg.map.offLcr v) :=
  exec_writeView_selected hsel (r := .lcr) (by decide) (by decide) v

/-! ### Modem control (R216, R217) -/

/-- The five stored bits are read back zero-extended (R216). -/
theorem exec_rdMcr : exec .rdMcr s = .next { s with
    acc := some (zext s.blk.mcr), hist := s.hist ++ [.bus false s.cfg.map.offMcr (zext s.blk.mcr)] } :=
  exec_readView_selected hsel (r := .mcr) (by decide) (by decide)

theorem exec_wrMcr (v : Word) : exec (.wrMcr v) s = .next ((writeMcr v s).endWrite s.cfg.map.offMcr v) :=
  exec_writeView_selected hsel (r := .mcr) (by decide) (by decide) v

/-! ### Line status (R222) -/

theorem exec_rdLsr : exec .rdLsr s = .next ((readLsr s).2.endRead s.cfg.map.offLsr s.lsrWord) :=
  exec_readView_selected hsel (r := .lsr) (by decide) (by decide)

/-- With `LSR_COR` the read clears the four error flags it reports (R222). -/
theorem exec_rdLsr_clears (hcor : s.cfg.lsrCor = true) : exec .rdLsr s = .next { s with
    blk := { s.blk with oe := false, pe := false, fe := false, bi := false },
    acc := some s.lsrWord, hist := s.hist ++ [.bus false s.cfg.map.offLsr s.lsrWord] } := by
  rw [exec_rdLsr hsel, readLsr, if_pos hcor]
  rfl

/-- Without `LSR_COR` the read leaves the block alone (R222). -/
theorem exec_rdLsr_keeps (hcor : s.cfg.lsrCor = false) : exec .rdLsr s = .next { s with
    acc := some s.lsrWord, hist := s.hist ++ [.bus false s.cfg.map.offLsr s.lsrWord] } := by
  rw [exec_rdLsr hsel, readLsr, hcor, if_neg Bool.false_ne_true]
  rfl

/-! ### Modem status (R226) -/

/-- The read draws eight bits and zero-extends them (R226). -/
theorem exec_rdMsr : exec .rdMsr s = .next { s with
    acc := some (zext (Config.draw 8 s.draws)), draws := s.draws + 1,
    hist := s.hist ++ [.bus false s.cfg.map.offMsr (zext (Config.draw 8 s.draws))] } :=
  exec_readView_selected hsel (r := .msr) (by decide) (by decide)

/-! ### Scratch (R230, R231) -/

/-- The eight stored bits are read back zero-extended (R230). -/
theorem exec_rdScr : exec .rdScr s = .next { s with
    acc := some (zext s.blk.scr), hist := s.hist ++ [.bus false s.cfg.map.offScr (zext s.blk.scr)] } :=
  exec_readView_selected hsel (r := .scr) (by decide) (by decide)

/-- The write stores eight bits (R231). -/
theorem exec_wrScr (v : Word) : exec (.wrScr v) s = .next { s with
    blk := { s.blk with scr := truncTo 8 v }, hist := s.hist ++ [.bus true s.cfg.map.offScr v] } :=
  exec_writeView_selected hsel (r := .scr) (by decide) (by decide) v

/-! ### Ignored writes (R223, R227, R246) -/

/-- A write of a register that ignores writes changes the history only (R121). -/
theorem exec_writeView_ignored {r : Reg} (hview : writeFn r = ignoreWrite) (hdata : r ≠ .data) (hier : r ≠ .ier)
    (v : Word) : exec (writeView v r) s = .next { s with hist := s.hist ++ [.bus true (s.cfg.map.off r) v] } := by
  rw [exec_writeView_selected hsel hdata hier v, hview]
  rfl

end Selected

/-! ### A write that stores, and refuses a feature if a bit asks for it (R121, R329) -/

/-- With the bit 0 nothing is refused. -/
theorem endWrite_refuseIf_false (b : Block) (c : RefuseCode) (off : Byte) (v : Word) (s : State) :
    ((s.setBlk b).refuseIf false c).endWrite off v = { s with blk := b, hist := s.hist ++ [.bus true off v] } :=
  rfl

/-- With the bit 1 the value is stored all the same, and the refusal stands in the history before the `Bus` event. -/
theorem endWrite_refuseIf_true (b : Block) (c : RefuseCode) (off : Byte) (v : Word) (s : State) :
    ((s.setBlk b).refuseIf true c).endWrite off v = { s with
      blk := b, refused := s.refused.add c, hist := s.hist ++ [.refuse c, .bus true off v] } := by
  simp [State.refuseIf, State.refuse, State.addRefuse, State.setBlk, State.log, State.endWrite]

@[simp] theorem refuseIf_blk (bit : Bool) (c : RefuseCode) (s : State) : (s.refuseIf bit c).blk = s.blk := by
  cases bit <;> rfl

/-- The write of modem control stores its five bits, whether or not it is refused (R217). -/
theorem writeMcr_mcr (v : Word) (s : State) : (writeMcr v s).blk.mcr = v.extractLsb' 0 5 := by
  rw [writeMcr, refuseIf_blk, truncTo_eq]
  rfl

/-! ### The statements -/

/-- Settles O24: the word is the line-status word, and the state follows `LSR_COR`. -/
theorem lineStatusReportsAndClears : Obligations.LineStatusReportsAndClears := by
  refine ⟨decode_at RegMap.std_wf false .lsr 0, fun s hsel => ⟨s.lsrWord, ?_⟩⟩
  obtain ⟨hdr, hoe, hpe, hfe, hbi, hthre, htemt, hhigh⟩ := lsrWord_bits s
  refine ⟨?dr, hoe, hpe, hfe, hbi, ?thre, ?temt, hhigh, exec_rdLsr_clears hsel, exec_rdLsr_keeps hsel⟩
  case dr => rw [hdr, State.dr, decide_eq_true_iff]
  case thre => rw [hthre, State.thre, decide_eq_true_iff]
  case temt =>
    rw [htemt]
    simp [State.temt]

/-- Settles O22: the read, and the write by whether it asks for `BRK`. -/
theorem lineControlReadsAndWrites : Obligations.LineControlReadsAndWrites := by
  refine ⟨decode_at RegMap.std_wf false .lcr 0, decode_at RegMap.std_wf true .lcr, fun v s hsel =>
    ⟨exec_rdLcr hsel, ?_⟩⟩
  rw [exec_wrLcr hsel, writeLcr, truncTo_eq]
  refine ⟨fun hbrk => ?accepted, fun hbrk => ?refused⟩
  case accepted => rw [hbrk, endWrite_refuseIf_false]
  case refused =>
    rw [hbrk, endWrite_refuseIf_true]
    rfl

/-- Settles O23: the read, the write by whether it asks for `LOOP`, and the pin requests, which are bits of the stored
value in both cases. -/
theorem modemControlReadsAndWrites : Obligations.ModemControlReadsAndWrites := by
  refine ⟨decode_at RegMap.std_wf false .mcr 0, decode_at RegMap.std_wf true .mcr, fun v s hsel =>
    ⟨exec_rdMcr hsel, ?_⟩⟩
  rw [exec_wrMcr hsel]
  refine ⟨fun hloop => ?accepted, fun hloop => ?refused, fun s' h => ?pins⟩
  case accepted => rw [writeMcr, truncTo_eq, hloop, endWrite_refuseIf_false]
  case refused =>
    rw [writeMcr, truncTo_eq, hloop, endWrite_refuseIf_true]
    rfl
  case pins =>
    cases h
    simp [State.rtsReq, State.dtrReq, writeMcr_mcr]

/-- Settles O25: the write-view of the three registers is the ignored write. -/
theorem statusWritesAreIgnored : Obligations.StatusWritesAreIgnored :=
  ⟨fun v => ⟨decode_at RegMap.std_wf true .lsr v, decode_at RegMap.std_wf true .msr v,
      decode_at RegMap.std_wf true .stat v⟩,
    fun v _ hsel => ⟨exec_writeView_ignored hsel (r := .lsr) rfl (by decide) (by decide) v,
      exec_writeView_ignored hsel (r := .msr) rfl (by decide) (by decide) v,
      exec_writeView_ignored hsel (r := .stat) rfl (by decide) (by decide) v⟩⟩

/-- Settles O26: the read-view is a draw, whatever its value. -/
theorem modemStatusIsADraw : Obligations.ModemStatusIsADraw :=
  ⟨decode_at RegMap.std_wf false .msr 0, fun _ => exec_rdMsr⟩

/-- Settles O27: the read, and the write, which nothing refuses. -/
theorem scratchReadsAndWrites : Obligations.ScratchReadsAndWrites := by
  refine ⟨decode_at RegMap.std_wf false .scr 0, decode_at RegMap.std_wf true .scr, fun v s hsel =>
    ⟨exec_rdScr hsel, ?_⟩⟩
  rw [exec_wrScr hsel, truncTo_eq]

end Sys2Proof.Machine

/-! SUPPORT. Proofs of the statements about auxiliary control, auxiliary status and the baud-rate divisor
(45_aux_baud.md): the mode flag gates none of the three registers (R213), so while the UART is selected each access is
its register's view and one `Bus` event. -/

namespace Sys2Proof.Machine

section Selected

variable {s : State} (hsel : s.usel = true)
include hsel

/-- The eight stored bits are read back zero-extended (R240). -/
theorem exec_rdCntl : exec .rdCntl s = .next { s with
    acc := some (zext s.blk.cntl), hist := s.hist ++ [.bus false s.cfg.map.offCntl (zext s.blk.cntl)] } :=
  exec_readView_selected hsel (r := .cntl) (by decide) (by decide)

theorem exec_wrCntl (v : Word) : exec (.wrCntl v) s = .next ((writeCntl v s).endWrite s.cfg.map.offCntl v) :=
  exec_writeView_selected hsel (r := .cntl) (by decide) (by decide) v

/-- The read draws the three bits of R245 in turn, and leaves the block alone. -/
theorem exec_rdStat : exec .rdStat s = .next { s with
    acc := some (readStat s).1, draws := s.draws + 3,
    hist := s.hist ++ [.bus false s.cfg.map.offStat (readStat s).1] } :=
  exec_readView_selected hsel (r := .stat) (by decide) (by decide)

/-- The sixteen stored bits are read back zero-extended (R247). -/
theorem exec_rdBaud : exec .rdBaud s = .next { s with
    acc := some (zext s.blk.baud), hist := s.hist ++ [.bus false s.cfg.map.offBaud (zext s.blk.baud)] } :=
  exec_readView_selected hsel (r := .baud) (by decide) (by decide)

/-- The write stores sixteen bits (R248). -/
theorem exec_wrBaud (v : Word) : exec (.wrBaud v) s = .next { s with
    blk := { s.blk with baud := truncTo 16 v }, hist := s.hist ++ [.bus true s.cfg.map.offBaud v] } :=
  exec_writeView_selected hsel (r := .baud) (by decide) (by decide) v

end Selected

/-- The write of auxiliary control stores its eight bits, whether or not it is refused (R241). -/
theorem writeCntl_cntl (v : Word) (s : State) : (writeCntl v s).blk.cntl = v.extractLsb' 0 8 := by
  rw [writeCntl, refuseIf_blk, truncTo_eq]
  rfl

/-- The word of `RD_STAT` is the auxiliary-status word with the next three free values (R245). -/
theorem readStat_word (s : State) : (readStat s).1 =
    s.statWord (Config.draw 1 s.draws) (Config.draw 1 (s.draws + 1)) (Config.draw 1 (s.draws + 2)) :=
  rfl

/-- A count of auxiliary status saturates at 15, so its four bits hold it (R118). -/
theorem toNat_ofNat_min_fifteen (n : Nat) : (BitVec.ofNat 4 (min n 15)).toNat = min n 15 := by
  rw [BitVec.toNat_ofNat, Nat.mod_eq_of_lt (by omega)]

/-! ### The statements -/

/-- Settles O29: the word is the auxiliary-status word with the next three draws, and the read only reports. -/
theorem auxStatusReports : Obligations.AuxStatusReports := by
  refine ⟨decode_at RegMap.std_wf false .stat 0, fun s hsel => ⟨(readStat s).1, ?_⟩⟩
  have hbits := statWord_bits s (Config.draw 1 s.draws) (Config.draw 1 (s.draws + 1)) (Config.draw 1 (s.draws + 2))
  have hfields := statWord_fields s (Config.draw 1 s.draws) (Config.draw 1 (s.draws + 1)) (Config.draw 1 (s.draws + 2))
  rw [← readStat_word] at hbits hfields
  obtain ⟨hdr, hroom, hidle, hshift, hoe, hfull, hrts, hcts, hempty, htemt⟩ := hbits
  obtain ⟨hzero10, hrxCount, hzero20, htxCount, hzero28⟩ := hfields
  refine ⟨?dr, ?room, extract_one _ 2 _ hidle, ?shifter, hoe, ?full, extract_one _ 6 _ hrts, extract_one _ 7 _ hcts,
    ?empty, ?temt, hzero10, ?rxCount, hzero20, ?txCount, hzero28, exec_rdStat hsel⟩
  case dr => rw [hdr, State.dr, decide_eq_true_iff]
  case room => rw [hroom, decide_eq_true_iff]
  case shifter => rw [hshift, Option.isNone_iff_eq_none]
  case full => rw [hfull, beq_iff_eq]
  case empty => rw [hempty, List.isEmpty_iff_length_eq_zero]
  case temt => rw [htemt, State.temt, Bool.and_eq_true, List.isEmpty_iff_length_eq_zero, Option.isNone_iff_eq_none]
  case rxCount => rw [hrxCount, toNat_ofNat_min_fifteen]
  case txCount => rw [htxCount, toNat_ofNat_min_fifteen]

/-- Settles O28: the read, the write by whether it asks for automatic flow control, and the enables, which are bits of
the stored value in both cases. -/
theorem auxControlReadsAndWrites : Obligations.AuxControlReadsAndWrites := by
  refine ⟨decode_at RegMap.std_wf false .cntl 0, decode_at RegMap.std_wf true .cntl, fun v s hsel =>
    ⟨exec_rdCntl hsel, ?_⟩⟩
  rw [exec_wrCntl hsel]
  refine ⟨fun hauto => ?accepted, fun hauto => ?refused, fun s' h => ?enables⟩
  case accepted => rw [writeCntl, truncTo_eq, Bool.or_eq_false_iff.mpr hauto, endWrite_refuseIf_false]
  case refused =>
    rw [writeCntl, truncTo_eq, Bool.or_eq_true_iff.mpr hauto, endWrite_refuseIf_true]
    rfl
  case enables =>
    cases h
    simp [State.rxe, State.txe, writeCntl_cntl]

/-- Settles O30: the read, and the write, which nothing refuses. -/
theorem baudReadsAndWrites : Obligations.BaudReadsAndWrites := by
  refine ⟨decode_at RegMap.std_wf false .baud 0, decode_at RegMap.std_wf true .baud, fun v s hsel =>
    ⟨exec_rdBaud hsel, ?_⟩⟩
  rw [exec_wrBaud hsel, truncTo_eq]

end Sys2Proof.Machine

/-! SUPPORT. Proofs of the statements about the engines and the environment (46_engines.md): what each turn of an engine
and of an arriving character does to the whole state, enabled or not (R260 to R266), and the transmit path from `DATA`
to the line as one first-in first-out path (R268). -/

namespace Sys2Proof.Machine

/-! ### The transmit path, one effect at a time (R268) -/

/-- The characters on their way to the line, the next one to leave first: the shifter, then the transmit queue. -/
def State.txPath (s : State) : List Byte := s.blk.tsr.toList ++ s.blk.txq

/-- What an effect can do to the transmit path and the line: leave both, lengthen the path at its tail by a write of
`DATA`, send its head, clear the queue, or set the block. -/
theorem Effect.txPath_cases {s s' : State} {new : List Event} (e : Effect s s' new) :
    (s'.txPath = s.txPath ∧ s'.lineOut = s.lineOut) ∨
    (∃ v : Word, Event.bus true s.cfg.map.offData v ∈ new ∧ s'.txPath = s.txPath ++ [truncTo 8 v] ∧
      s'.lineOut = s.lineOut) ∨
    (∃ c, s.txPath = c :: s'.txPath ∧ Event.txEmit (s.frameOf c) ∈ new ∧
      s'.lineOut = s.lineOut ++ [s.frameOf c]) ∨
    (∃ rx, Event.fifoClr rx true ∈ new ∧ s'.blk.txq = [] ∧ s'.blk.tsr = s.blk.tsr ∧ s'.lineOut = s.lineOut) ∨
    (Event.reset ∈ new ∧ s'.blk = s.cfg.rst ∧ s'.lineOut = s.lineOut) := by
  cases e with
  | push v ev _ blk line =>
    refine .inr (.inl ⟨v, ev, ?_, line⟩)
    rw [State.txPath, State.txPath, blk, List.append_assoc]
  | load c rest hfree hq blk line =>
    refine .inl ⟨?_, line⟩
    rw [State.txPath, State.txPath, blk, hfree, hq]
    rfl
  | emit c htsr ev blk line =>
    refine .inr (.inr (.inl ⟨c, ?_, ev, line⟩))
    rw [State.txPath, State.txPath, blk, htsr]
    rfl
  | fifoClr rx tx ev blk line =>
    cases tx with
    | true => exact .inr (.inr (.inr (.inl ⟨rx, ev, by rw [blk]; rfl, by rw [blk], line⟩)))
    | false => exact .inl ⟨by rw [State.txPath, blk]; rfl, line⟩
  | reset ev blk line => exact .inr (.inr (.inr (.inr ⟨ev, blk, line⟩)))
  | quiet blk line => exact .inl ⟨by rw [State.txPath, blk]; rfl, line⟩
  | store _ _ _ blk line => exact .inl ⟨by rw [State.txPath, blk]; rfl, line⟩
  | pop _ _ _ _ _ blk line => exact .inl ⟨by rw [State.txPath, blk]; rfl, line⟩
  | clearErrors blk line => exact .inl ⟨by rw [State.txPath, blk]; rfl, line⟩
  | arrive _ _ blk line => exact .inl ⟨by rw [State.txPath, blk]; rfl, line⟩

/-- Settles O60: a step is one effect, and the frame it may send is that of the path's head. -/
theorem transmitPathIsFifo : Obligations.TransmitPathIsFifo := by
  intro s s' hstep
  obtain ⟨new, grows, effect⟩ := step_spec hstep
  dsimp only
  rw [grows.drop]
  obtain hkept | ⟨v, ev, hpath, hline⟩ | ⟨c, hpath, ev, hline⟩ | hclear | hreset := effect.txPath_cases
  · exact .inl hkept
  · exact .inr (.inl ⟨v, ev, truncTo_eq 8 v ▸ hpath, hline⟩)
  · exact .inr (.inr (.inl ⟨c, s.frameOf c, hpath, rfl, ev, hline⟩))
  · exact .inr (.inr (.inr (.inl hclear)))
  · exact .inr (.inr (.inr (.inr hreset)))

/-! ### `TX_LOAD` (R261) -/

/-- Enabled: the head of the queue enters the shifter. -/
theorem txLoad_enabled {s : State} {c : Byte} {q : List Byte} (hsel : s.usel = true) (htxe : s.txe = true)
    (hfree : s.blk.tsr = none) (hq : s.blk.txq = c :: q) : txLoad s = { s with
      blk := { s.blk with txq := q, tsr := some c }, hist := s.hist ++ [.txLoad c] } := by
  rw [txLoad, hsel, htxe, hfree, hq]
  rfl

theorem canLoad_eq_false_iff {s : State} :
    s.canLoad = false ↔ s.usel = false ∨ s.txe = false ∨ s.blk.tsr ≠ none ∨ s.blk.txq = [] := by
  simp only [State.canLoad, Bool.and_eq_false_iff, or_assoc, Option.isNone_eq_false_iff, Option.isSome_iff_ne_none,
    Bool.not_eq_false', List.isEmpty_iff]

/-- Not enabled: the turn passes. -/
theorem txLoad_disabled {s : State} (h : s.canLoad = false) : txLoad s = s := by
  unfold txLoad
  split
  · next hen hfree hq => simp [State.canLoad, hen, hfree, hq] at h
  · rfl

/-- Settles O31: the turn loads the shifter, or it passes. -/
theorem transmitEngineLoads : Obligations.TransmitEngineLoads := by
  intro s rest hturn
  rw [step_turn hturn]
  refine ⟨fun c q hsel htxe hfree hq => ?enabled, fun hdis s' hstep => ?disabled⟩
  case enabled => exact congrArg Host.Outcome.next (txLoad_enabled (s := { s with turns := rest }) hsel htxe hfree hq)
  case disabled =>
    cases hstep
    rw [txLoad_disabled (s := { s with turns := rest }) (canLoad_eq_false_iff.mpr hdis)]
    exact ⟨rfl, rfl, rfl⟩

/-! ### `TX_EMIT` (R262) -/

/-- Enabled: the character in the shifter leaves as a frame. -/
theorem txEmit_enabled {s : State} {c : Byte} (hsel : s.usel = true) (htsr : s.blk.tsr = some c) :
    txEmit s = { s with
      blk := { s.blk with tsr := none }, lineOut := s.lineOut ++ [s.frameOf c],
      hist := s.hist ++ [.txEmit (s.frameOf c)] } := by
  rw [txEmit, hsel, htsr]
  rfl

theorem canEmit_eq_false_iff {s : State} : s.canEmit = false ↔ s.usel = false ∨ s.blk.tsr = none := by
  simp only [State.canEmit, Bool.and_eq_false_iff, Option.isSome_eq_false_iff, Option.isNone_iff_eq_none]

/-- Not enabled: the turn passes. -/
theorem txEmit_disabled {s : State} (h : s.canEmit = false) : txEmit s = s := by
  unfold txEmit
  split
  · next hsel htsr => simp [State.canEmit, hsel, htsr] at h
  · rfl

/-- Settles O32: the frame is the one of the configuration in force, or the turn passes. -/
theorem transmitEngineEmits : Obligations.TransmitEngineEmits := by
  intro s rest hturn
  rw [step_turn hturn]
  refine ⟨fun c hsel htsr => ⟨s.frameOf c, rfl, rfl, rfl, rfl, rfl, ?enabled⟩, fun hdis s' hstep => ?disabled⟩
  case enabled => exact congrArg Host.Outcome.next (txEmit_enabled (s := { s with turns := rest }) hsel htsr)
  case disabled =>
    cases hstep
    rw [txEmit_disabled (s := { s with turns := rest }) (canEmit_eq_false_iff.mpr hdis)]
    exact ⟨rfl, rfl, rfl⟩

/-! ### `RX_ARRIVE` (R264 to R266) -/

/-- Unselected or with the receiver disabled, only the history takes note (R266). -/
theorem rxArrive_ignored {s : State} (h : s.usel = false ∨ s.rxe = false) (c : Byte) (tpe tfe tbi rp : Bool) :
    rxArrive c tpe tfe tbi rp s = s.log (.rx c tpe tfe tbi .ignored) := by
  have hoff : (!(s.usel && s.rxe)) = true := by simpa using h
  rw [rxArrive, if_pos hoff]

section Receives

variable {s : State} (hsel : s.usel = true) (hrxe : s.rxe = true)
include hsel hrxe

/-- The guard of R266 does not hold, so the room in the queue decides. -/
theorem receiver_not_off : ¬(!(s.usel && s.rxe)) = true := by
  simp [hsel, hrxe]

/-- With room it is stored, whatever its tags are (R264). -/
theorem rxArrive_room (hroom : s.blk.rxq.length < s.cfg.rxDepth) (c : Byte) (tpe tfe tbi rp : Bool) :
    rxArrive c tpe tfe tbi rp s = { s with
      blk := { s.blk with
        rxq := s.blk.rxq ++ [c &&& wlmask s.wls],
        pe := s.blk.pe || tpe, fe := s.blk.fe || tfe, bi := s.blk.bi || tbi },
      hist := s.hist ++ [.rx (c &&& wlmask s.wls) tpe tfe tbi .stored] } := by
  rw [rxArrive, if_neg (receiver_not_off hsel hrxe), if_pos hroom]
  rfl

/-- With no room it may be lost, and its tags with it (R265). -/
theorem rxArrive_drop (hfull : ¬s.blk.rxq.length < s.cfg.rxDepth) (c : Byte) (tpe tfe tbi : Bool) :
    rxArrive c tpe tfe tbi false s = { s with
      blk := { s.blk with oe := true },
      hist := s.hist ++ [.rx (c &&& wlmask s.wls) tpe tfe tbi .overrunDrop] } := by
  rw [rxArrive, if_neg (receiver_not_off hsel hrxe), if_neg hfull]
  rfl

/-- With no room it may replace the newest unread character, and leave its tags (R265). -/
theorem rxArrive_replace (hfull : ¬s.blk.rxq.length < s.cfg.rxDepth) (c : Byte) (tpe tfe tbi : Bool) :
    rxArrive c tpe tfe tbi true s = { s with
      blk := { s.blk with
        oe := true, rxq := s.blk.rxq.dropLast ++ [c &&& wlmask s.wls],
        pe := s.blk.pe || tpe, fe := s.blk.fe || tfe, bi := s.blk.bi || tbi },
      hist := s.hist ++ [.rx (c &&& wlmask s.wls) tpe tfe tbi .overrunReplace] } := by
  rw [rxArrive, if_neg (receiver_not_off hsel hrxe), if_neg hfull]
  rfl

end Receives

/-- Settles O33: the mask written out is that of the word length. -/
theorem receiveEngineStores : Obligations.ReceiveEngineStores := by
  rintro s rest c _ tpe tfe tbi rp hturn hsel hrxe hroom rfl
  rw [step_turn hturn]
  exact congrArg Host.Outcome.next (rxArrive_room (s := { s with turns := rest }) hsel hrxe hroom c tpe tfe tbi rp)

/-- Settles O34: the choice in the turn decides between the two outcomes. -/
theorem receiveOverrunDropsOrReplaces : Obligations.ReceiveOverrunDropsOrReplaces := by
  rintro s rest c _ tpe tfe tbi hsel hrxe hfull rfl
  have hnoRoom : ¬s.blk.rxq.length < s.cfg.rxDepth := hfull.not_lt
  refine ⟨fun hturn => ?drop, fun hturn => ?replace⟩ <;> rw [step_turn hturn]
  case drop =>
    exact congrArg Host.Outcome.next (rxArrive_drop (s := { s with turns := rest }) hsel hrxe hnoRoom c tpe tfe tbi)
  case replace =>
    exact congrArg Host.Outcome.next (rxArrive_replace (s := { s with turns := rest }) hsel hrxe hnoRoom c tpe tfe tbi)

/-- Settles O35: the ignored character, and the cover of the three branches by the bound on the receive queue (R45). -/
theorem unwantedCharacterIsIgnored : Obligations.UnwantedCharacterIsIgnored := by
  intro s rest c tpe tfe tbi rp hturn
  refine ⟨fun hoff => ?ignored, fun hinv => ?cover⟩
  case ignored =>
    rw [step_turn hturn]
    exact congrArg Host.Outcome.next (rxArrive_ignored (s := { s with turns := rest }) hoff c tpe tfe tbi rp)
  case cover =>
    obtain ⟨-, hrx⟩ := Block.fits_iff.mp (State.inv_iff.mp hinv).2
    exact .inr (.inr hrx.lt_or_eq)

/-! ### While unselected (R260) -/

/-- A turn of an engine or of an arriving character leaves an unselected state as it is, or notes the ignored
character. -/
theorem runTurn_unselected {s s' : State} {t : Turn} (hsel : s.usel = false) (hhost : t ≠ .host) (hreset : t ≠ .reset)
    (h : runTurn t s = .next s') : s' = s ∨ ∃ c tpe tfe tbi, s' = s.log (.rx c tpe tfe tbi .ignored) := by
  cases t with
  | host => exact absurd rfl hhost
  | reset => exact absurd rfl hreset
  | txLoad =>
    cases h
    exact .inl (txLoad_disabled (canLoad_eq_false_iff.mpr (.inl hsel)))
  | txEmit =>
    cases h
    exact .inl (txEmit_disabled (canEmit_eq_false_iff.mpr (.inl hsel)))
  | rxArrive c tpe tfe tbi rp =>
    cases h
    exact .inr ⟨c, tpe, tfe, tbi, rxArrive_ignored (.inl hsel) c tpe tfe tbi rp⟩

/-- Settles O36: the one event such a turn can append is neither of the transmit engine's. -/
theorem enginesFrozenWhileUnselected : Obligations.EnginesFrozenWhileUnselected := by
  intro s s' t hsel hhost hreset h
  obtain rfl | ⟨c, tpe, tfe, tbi, rfl⟩ := runTurn_unselected hsel hhost hreset h <;> simp

end Sys2Proof.Machine

/-! SUPPORT. Proofs of the statements about the faults that stop an access (60_exceptions.md): an operation whose gate
is closed is the faulting access of its code (R321, R326), and so is a transaction whose word names no operation (R322,
R323); and the interrupt output (R330, R331). -/

namespace Sys2Proof.Machine

/-! ### Operations that meet a closed gate -/

section ClosedGate

variable {i : Instr} {s : State} {c : FaultCode} (hgate : s.gateFault i.reg = some c)
include hgate

/-- A read that meets a closed gate, field by field (R140). -/
theorem exec_read_gated (hread : i.we = false) : exec i s = .next { s with
    fault := s.fault.add c,
    hist := s.hist ++ [.fault c, .bus false (s.cfg.map.off i.reg) (Config.draw 32 s.draws)],
    acc := some (Config.draw 32 s.draws), draws := s.draws + 1 } := by
  rw [exec_eq, hread, if_neg Bool.false_ne_true, busRead_fault _ hgate, faultRead_eq]

/-- A write that meets a closed gate, field by field (R141). -/
theorem exec_write_gated (hwrite : i.we = true) : exec i s = .next { s with
    fault := s.fault.add c, hist := s.hist ++ [.fault c, .bus true (s.cfg.map.off i.reg) i.wdata] } := by
  rw [exec_eq, if_pos hwrite, busWrite_fault _ _ hgate, faultWrite_eq]

end ClosedGate

/-- The registers beside the pair are the gated ones (R104, R140). -/
theorem Reg.gated_of_ne {r : Reg} (h0 : r ≠ .sel0) (h1 : r ≠ .sel1) : r.gated = true := by
  cases r with
  | sel0 => exact absurd rfl h0
  | sel1 => exact absurd rfl h1
  | _ => rfl

/-- Settles O7: while unselected the gate of a gated register is closed with F1. -/
theorem unselectedAccessFaults : Obligations.UnselectedAccessFaults := by
  intro i s h0 h1 hsel
  have hgate : s.gateFault i.reg = some .f1 := gateFault_unselected (Reg.gated_of_ne h0 h1) hsel
  exact ⟨exec_read_gated hgate, exec_write_gated hgate⟩

/-- Settles O8: under the mode flag the gate of `DATA` and of `IER` is closed with F6. -/
theorem modeFlagAccessFaults : Obligations.ModeFlagAccessFaults := by
  intro i s hreg hsel hflag
  have hgate : s.gateFault i.reg = some .f6 := gateFault_modeFlag hreg hsel hflag
  exact ⟨exec_read_gated hgate, exec_write_gated hgate⟩

/-! ### Words that name no operation -/

/-- Settles O9: F3 at a misaligned offset, F2 at an aligned one where no register stands, in both directions. -/
theorem unnamedOffsetFaults : Obligations.UnnamedOffsetFaults := by
  intro off v s c hcause
  have htxn : ∀ we, busTxn (mkTxn we off v) s = .next (faultTxn c we off v s) := by
    intro we
    obtain ⟨hmis, rfl⟩ | ⟨halign, hno, rfl⟩ := hcause
    · exact busTxn_misaligned hmis we v s
    · exact busTxn_unmapped halign hno we v
  refine ⟨(htxn false).trans ?read, (htxn true).trans ?write⟩
  case read => rw [faultTxn, if_neg Bool.false_ne_true, faultRead_eq]
  case write => rw [faultTxn, if_pos rfl, faultWrite_eq]

/-! ### The interrupt output -/

/-- The output is the selected block's pending sources (R331). -/
theorem irq_iff (s : State) :
    s.irq = true ↔ s.usel = true ∧ (s.pending1 = true ∨ s.pending2 = true ∨ s.pending3 = true) := by
  simp [State.irq, or_assoc]

/-- With no source enabled none is pending (R192). -/
theorem not_pending_of_ier_zero {s : State} (h : s.blk.ier = 0) :
    ¬s.pending1 = true ∧ ¬s.pending2 = true ∧ ¬s.pending3 = true := by
  simp [State.pending1, State.pending2, State.pending3, h]

/-- With nothing pending and both FIFO-state bits set the identification word is `0xC1` (R194). -/
theorem iirWord_idle {s : State} (hlow : s.iirLow = 0b000001#6) (hfifo : s.cfg.fifoState = 0b11) :
    s.iirWord = 0x000000C1 := by
  rw [iirWord_eq, hlow, hfifo]
  decide

/-- Settles O21: the conditions named are the pending sources, and each needs its enable. -/
theorem interruptOutputFollowsEnables : Obligations.InterruptOutputFollowsEnables := by
  intro s
  rw [← pending1_iff, ← pending2_iff, ← pending3_iff]
  refine ⟨irq_iff s, fun hier => ?_⟩
  obtain ⟨h1, h2, h3⟩ := not_pending_of_ier_zero hier
  refine ⟨by simp [irq_iff, h1, h2, h3, ← Bool.not_eq_true], fun hsel hfifo => ⟨_, exec_rdIir hsel, ?_⟩⟩
  exact congrArg some (iirWord_idle (iirLow_nonePending h1 h2 h3) hfifo)

end Sys2Proof.Machine

/-! SUPPORT. Proofs of the statements about the host script (47_driver_protocol.md), one operation at a time: CLAIM, the
accesses RD, WR and WRM as one transaction each, BRZ, RET8, HALT, and the refusal of INIT (R281 to R287, R300). -/

namespace Sys2Proof.Machine

/-! ### The ownership check, and the end of an access of the host -/

/-- The host's turn taken, and F8 recorded if nothing is claimed (R288). -/
theorem checkClaim_eq (s : State) : s.checkClaim = if s.claimed = true then s else
    { s with fault := s.fault.add .f8, hist := s.hist ++ [.fault .f8] } := by
  cases h : s.claimed <;> simp [State.checkClaim, h, State.raise, State.addFault, State.log]

/-- The state after the turn and the ownership check, as the statements about RD, WR and WRM write it. -/
theorem eq_checkClaim_turn {s s1 : State} {rest : List Turn} (hs1 : s1 = (if s.claimed = true then
      { s with turns := rest } else
      { s with turns := rest, fault := { s.fault with f8 := true }, hist := s.hist ++ [.fault .f8] })) :
    s1 = ({ s with turns := rest } : State).checkClaim := by
  rw [hs1, checkClaim_eq]
  rfl

theorem checkClaim_cfg (s : State) : s.checkClaim.cfg = s.cfg := by unfold State.checkClaim; split <;> rfl

theorem checkClaim_hpc (s : State) : s.checkClaim.hpc = s.hpc := by unfold State.checkClaim; split <;> rfl

theorem checkClaim_acc (s : State) : s.checkClaim.acc = s.acc := by unfold State.checkClaim; split <;> rfl

/-- An access of the host is its transaction after the ownership check, and then the script counter moves on. -/
theorem onNext_advance_txn {t : Txn} {s s' : State} (h : busTxn t s.checkClaim = .next s') :
    onNext State.advance (busTxn t s.checkClaim) = .next { s' with hpc := s.hpc + 1 } := by
  obtain ⟨u, new, hu, access⟩ := busTxn_access t s.checkClaim
  obtain rfl : u = s' := by rw [hu] at h; cases h; rfl
  rw [hu, ← checkClaim_hpc, ← access.keeps.hpc]
  rfl

/-- An access of the host of a mapped register performs the operation of its view. -/
theorem busTxn_checkClaim {s : State} (hwf : s.cfg.wf = true) (we : Bool) (r : Reg) (v : Word) :
    busTxn (mkTxn we (s.cfg.map.off r) v) s.checkClaim =
      exec (if we then writeView v r else readView r) s.checkClaim := by
  obtain ⟨-, -, hmap, -⟩ := Cfg.wf_iff.mp hwf
  have hdec := decode_at hmap we r v
  rw [← checkClaim_cfg s] at hdec ⊢
  exact busTxn_of_decode hdec

/-- A read transaction answers a state with the word returned in `acc` and in its last event (R145). -/
theorem busTxn_read (off : Byte) (data : Word) (s : State) : ∃ s' v, busTxn (mkTxn false off data) s = .next s' ∧
    s'.acc = some v ∧ s'.hist.getLast? = some (.bus false off v) := by
  obtain ⟨mid, new, v, -, -, hres⟩ := busTxn_completes false off data s
  exact ⟨_, v, hres, State.endTxn_acc off v mid, by rw [State.endTxn_hist]; simp⟩

/-- A write transaction answers a state with the host's register as before (R22). -/
theorem busTxn_write (off : Byte) (data : Word) (s : State) :
    ∃ s', busTxn (mkTxn true off data) s = .next s' ∧ s'.acc = s.acc := by
  cases hdec : decode s.cfg.map (mkTxn true off data) with
  | error e =>
    refine ⟨_, busTxn_of_decode_error hdec, ?_⟩
    rw [faultTxn, if_pos rfl, faultWrite_eq]
  | ok i =>
    obtain ⟨-, hwe, -⟩ := decode_ok hdec
    obtain ⟨s', -, hexec, -⟩ := exec_access i s
    exact ⟨s', (busTxn_of_decode hdec).trans hexec, exec_write_acc (hwe.trans (txnWe_mkTxn _ _ _)) hexec⟩

/-- WRM with a word in `acc` is one access, of the merged word (R284). -/
theorem hostWrm_some {s : State} {a : Word} (h : s.acc = some a) (w : WName) (clr set : Word) :
    hostWrm w clr set s = onNext State.advance (busTxn (writeTxn s.cfg w (mergeMasks a clr set)) s.checkClaim) := by
  rw [hostWrm, h]

/-- WRM without one makes no access (R284). -/
theorem hostWrm_none {s : State} (h : s.acc = none) (w : WName) (clr set : Word) :
    hostWrm w clr set s = .next (accUnwritten s.checkClaim) := by
  rw [hostWrm, h]

/-- BRZ with a word in `acc`: to the target, or on (R285). -/
theorem hostBrz_some {s : State} {a : Word} (h : s.acc = some a) (mask : Word) (target : Nat) :
    hostBrz mask target s = if a &&& mask = 0 then { s with hpc := target } else s.advance := by
  rw [hostBrz, h]

/-- BRZ without one falls through (R285). -/
theorem hostBrz_none {s : State} (h : s.acc = none) (mask : Word) (target : Nat) :
    hostBrz mask target s = accUnwritten s := by
  rw [hostBrz, h]

/-- An operation that needs `acc` before any read, field by field (R328). -/
theorem accUnwritten_eq (s : State) : accUnwritten s = { s with
    fault := s.fault.add .f9, hist := s.hist ++ [.fault .f9], hpc := s.hpc + 1 } :=
  rfl

/-! ### The statements, one operation each -/

/-- Settles O41: the claim is free, or it is F7. -/
theorem claimIsMadeOnce : Obligations.ClaimIsMadeOnce := by
  intro s rest hturn hop
  rw [step_host hturn hop, hostOp, hostClaim]
  refine ⟨fun hfree => ?_, fun hclaimed => ?_⟩
  · rw [if_neg (by simp [hfree])]
    rfl
  · rw [if_pos hclaimed]
    rfl

/-- Settles O42: the read is the transaction after the ownership check. -/
theorem hostReadIsOneTransaction : Obligations.HostReadIsOneTransaction := by
  intro s s1 rest r hturn hop hs1
  obtain ⟨s', v, htxn, hacc, hlast⟩ := busTxn_read (s.cfg.map.off (r.reg s.cfg)) 0 s1
  obtain rfl := eq_checkClaim_turn hs1
  exact ⟨s', v, htxn, hacc, hlast, (step_host hturn hop).trans (onNext_advance_txn htxn)⟩

/-- Settles O43: as the read, and a write leaves `acc` alone. -/
theorem hostWriteIsOneTransaction : Obligations.HostWriteIsOneTransaction := by
  intro s s1 rest w imm hturn hop hs1
  obtain ⟨s', htxn, hacc⟩ := busTxn_write (s.cfg.map.off (w.reg s.cfg)) imm s1
  obtain rfl := eq_checkClaim_turn hs1
  exact ⟨s', htxn, hacc.trans (checkClaim_acc _), (step_host hturn hop).trans (onNext_advance_txn htxn)⟩

/-- Settles O44: with a word in `acc` it is the write of the merged word; without one it ends after the ownership
check. -/
theorem maskedWriteMergesAcc : Obligations.MaskedWriteMergesAcc := by
  intro s s1 rest w clr set hturn hop hs1
  obtain rfl := eq_checkClaim_turn hs1
  refine ⟨fun a ha => ?merged, fun hnone => (step_host hturn hop).trans ?unwritten⟩
  case merged =>
    obtain ⟨s', htxn, hacc⟩ := busTxn_write (s.cfg.map.off (w.reg s.cfg)) (mergeMasks a clr set)
      ({ s with turns := rest } : State).checkClaim
    exact ⟨s', htxn, (hacc.trans (checkClaim_acc _)).trans ha,
      (step_host hturn hop).trans
        ((hostWrm_some (s := { s with turns := rest }) ha w clr set).trans (onNext_advance_txn htxn))⟩
  case unwritten =>
    refine (hostWrm_none (s := { s with turns := rest }) hnone w clr set).trans ?_
    rw [accUnwritten_eq, checkClaim_hpc]
    rfl

/-- Settles O45: `acc` holds a word whose masked bits are clear, one whose masked bits are not, or none. -/
theorem branchTestsMaskedAcc : Obligations.BranchTestsMaskedAcc := by
  intro s rest mask target hturn hop
  rw [step_host hturn hop, hostOp]
  refine ⟨fun a ha hclear => ?_, fun a ha hset => ?_, fun hnone => ?_⟩
  · rw [hostBrz_some (s := { s with turns := rest }) ha, if_pos hclear]
  · rw [hostBrz_some (s := { s with turns := rest }) ha, if_neg hset]
    rfl
  · rw [hostBrz_none (s := { s with turns := rest }) hnone, accUnwritten_eq]
    rfl

/-- Settles O46: `acc` holds a word or none. -/
theorem returnByteAppendsLowByte : Obligations.ReturnByteAppendsLowByte := by
  intro s rest hturn hop
  rw [step_host hturn hop, hostOp, hostRet8]
  refine ⟨fun a ha => ?_, fun hnone => ?_⟩
  · rw [ha, ← truncTo_eq]
    rfl
  · rw [hnone]
    rfl

/-- The host's turn with no operation at the script counter passes (R287; log entry 7). -/
theorem step_host_end {s : State} {rest : List Turn} (hturn : s.turns = .host :: rest)
    (hend : s.script.length ≤ s.hpc) : step s = .next { s with turns := rest } := by
  have hfetch : ({ s with turns := rest } : State).fetch = none := List.getElem?_eq_none hend
  rw [step_turn hturn, runTurn, hostStep, hfetch]

/-- Settles O47: HALT changes nothing, and past the script there is no operation. -/
theorem haltStays : Obligations.HaltStays := by
  rintro s rest hturn (hhalt | hend)
  · exact step_host hturn hhalt
  · exact step_host_end hturn hend

/-- INIT with a divisor out of range is its refusal (R300; log entry 15). -/
theorem initOps_refused {d : Nat} (hd : d = 0 ∨ 0xFFFF < d) (c : Cfg) : initOps c d = [.refuseDivisor] :=
  if_neg (by omega)

/-- Settles O49: the one operation of a refused INIT records X5. -/
theorem initRefusesDivisorOutOfRange : Obligations.InitRefusesDivisorOutOfRange := by
  intro s rest d hd hturn hop
  rw [initOps_refused hd] at hop ⊢
  exact ⟨rfl, step_host hturn hop⟩

end Sys2Proof.Machine

/-! SUPPORT. Proofs of the statements about WRITE_BYTE and READ_BYTE (47_driver_protocol.md R305, R308). Both poll line
status and then access `DATA`. What the poll promised of a queue is kept by every turn but the host's own access and a
`RESET`, so the access finds the room, or the character, that it needs. -/

namespace Sys2Proof.Machine

/-! ### A run up to a script index -/

/-- A run of one step more begins with a step. -/
theorem run_succ_iff {k : Nat} {s s' : State} : Host.Core.run core (k + 1) s = .next s' ↔
    ∃ t, step s = .next t ∧ Host.Core.run core k t = .next s' := by
  constructor
  · intro h
    simp only [Host.Core.run] at h
    split at h
    case h_1 t ht => exact ⟨t, ht, h⟩
    case h_2 => cases h
    case h_3 => cases h
  · rintro ⟨t, ht, hk⟩
    have hstep : core.step s = .next t := ht
    simp only [Host.Core.run, hstep]
    exact hk

/-- A property that every step keeps which is no `RESET` and does not begin at the script index `stop` is kept by a run
with no `RESET` that does not reach `stop` before its end. -/
theorem run_keeps_until {P : State → Prop} {stop : Nat}
    (hs : ∀ {t t' : State}, P t → t.hpc ≠ stop → step t = .next t' → Event.reset ∉ t'.hist.drop t.hist.length → P t') :
    ∀ (k : Nat) {s s' : State}, P s → (∀ j t, j < k → Host.Core.run core j s = .next t → t.hpc ≠ stop) →
      Host.Core.run core k s = .next s' → Event.reset ∉ s'.hist.drop s.hist.length → P s'
  | 0, _, _, hp, _, h, _ => by cases h; exact hp
  | k + 1, s, s', hp, hin, h, hreset => by
    obtain ⟨t, ht, hk⟩ := run_succ_iff.mp h
    obtain ⟨n1, g1, -⟩ := step_spec ht
    obtain ⟨n2, g2⟩ := run_grows k hk
    rw [(g1.trans g2).drop, List.mem_append, not_or] at hreset
    have hpt : P t := hs hp (hin 0 s k.succ_pos rfl) ht (by rw [g1.drop]; exact hreset.1)
    exact run_keeps_until hs k hpt
      (fun j u hj hu => hin (j + 1) u (Nat.succ_lt_succ hj) (run_succ_iff.mpr ⟨t, ht, hu⟩)) hk
      (by rw [g2.drop]; exact hreset.2)

/-! ### What keeps a promise of line status -/

/-- The parameters and the selection stay, the transmit queue gets no longer and the receive queue no shorter. -/
structure KeepsPoll (s s' : State) : Prop where
  cfg : s'.cfg = s.cfg
  script : s'.script = s.script
  selw : s'.blk.selw = s.blk.selw
  txq : s'.blk.txq.length ≤ s.blk.txq.length
  rxq : s.blk.rxq.length ≤ s'.blk.rxq.length

/-- Beyond that the host's counter and register and the fault set stay. -/
structure Undisturbed (s s' : State) : Prop extends KeepsPoll s s' where
  hpc : s'.hpc = s.hpc
  acc : s'.acc = s.acc
  fault : s'.fault = s.fault

theorem KeepsPoll.trans {a b c : State} (h : KeepsPoll a b) (k : KeepsPoll b c) : KeepsPoll a c where
  cfg := k.cfg.trans h.cfg
  script := k.script.trans h.script
  selw := k.selw.trans h.selw
  txq := k.txq.trans h.txq
  rxq := h.rxq.trans k.rxq

theorem Undisturbed.trans {a b c : State} (h : Undisturbed a b) (k : Undisturbed b c) : Undisturbed a c where
  toKeepsPoll := h.toKeepsPoll.trans k.toKeepsPoll
  hpc := k.hpc.trans h.hpc
  acc := k.acc.trans h.acc
  fault := k.fault.trans h.fault

theorem KeepsPoll.usel {s s' : State} (h : KeepsPoll s s') : s'.usel = s.usel := by
  rw [State.usel, State.usel, h.selw, h.cfg]

theorem undisturbed_takeTurn (s : State) : Undisturbed s s.takeTurn := by
  have grows := grows_takeTurn s
  exact ⟨⟨grows.cfg, grows.script, by rw [takeTurn_blk], by rw [takeTurn_blk], by rw [takeTurn_blk]⟩, takeTurn_hpc s,
    takeTurn_acc s, takeTurn_fault s⟩

theorem undisturbed_txLoad (s : State) : Undisturbed s (txLoad s) := by
  unfold txLoad
  split
  case h_1 c rest _ _ hq => exact ⟨⟨rfl, rfl, rfl, by simp [hq], le_rfl⟩, rfl, rfl, rfl⟩
  case h_2 => exact ⟨⟨rfl, rfl, rfl, le_rfl, le_rfl⟩, rfl, rfl, rfl⟩

theorem undisturbed_txEmit (s : State) : Undisturbed s (txEmit s) := by
  unfold txEmit
  split <;> exact ⟨⟨rfl, rfl, rfl, le_rfl, le_rfl⟩, rfl, rfl, rfl⟩

/-- An overrun replaces the newest character and does not remove it (R265). -/
theorem undisturbed_rxArrive (c : Byte) (tpe tfe tbi rp : Bool) (s : State) :
    Undisturbed s (rxArrive c tpe tfe tbi rp s) := by
  have hreplace : s.blk.rxq.length ≤ (s.blk.rxq.dropLast ++ [c &&& wlmask s.wls]).length := by
    rw [List.length_append, List.length_dropLast, List.length_singleton]
    omega
  unfold rxArrive
  split
  · exact ⟨⟨rfl, rfl, rfl, le_rfl, le_rfl⟩, rfl, rfl, rfl⟩
  · split
    · exact ⟨⟨rfl, rfl, rfl, le_rfl, by simp⟩, rfl, rfl, rfl⟩
    · split
      · exact ⟨⟨rfl, rfl, rfl, le_rfl, hreplace⟩, rfl, rfl, rfl⟩
      · exact ⟨⟨rfl, rfl, rfl, le_rfl, le_rfl⟩, rfl, rfl, rfl⟩

/-- A step without a `RESET` is the host's, or it disturbs nothing. -/
theorem step_host_or_undisturbed {s s' : State} (h : step s = .next s')
    (hreset : Event.reset ∉ s'.hist.drop s.hist.length) : hostStep s.takeTurn = .next s' ∨ Undisturbed s s' := by
  have htake := undisturbed_takeTurn s
  rw [step] at h
  cases hturn : s.nextTurn with rw [hturn] at h
  | host => exact .inl h
  | txLoad =>
    cases h
    exact .inr (htake.trans (undisturbed_txLoad _))
  | txEmit =>
    cases h
    exact .inr (htake.trans (undisturbed_txEmit _))
  | rxArrive c tpe tfe tbi rp =>
    cases h
    exact .inr (htake.trans (undisturbed_rxArrive c tpe tfe tbi rp _))
  | reset =>
    cases h
    have grows := (grows_takeTurn s).trans ((grows_setBlk s.takeTurn.cfg.rst _).trans (grows_log .reset _))
    rw [resetBlock, grows.drop] at hreset
    simp at hreset

/-! ### The host's accesses of line status and of `DATA` -/

/-- Adding a code leaves the others as they were (R42). -/
theorem FaultSet.has_add_of_ne {q : FaultSet} {c d : FaultCode} (h : c ≠ d) : (q.add c).has d = q.has d := by
  rw [FaultSet.has_add, beq_eq_false_iff_ne.mpr h, Bool.or_false]

theorem checkClaim_has {d : FaultCode} (h : FaultCode.f8 ≠ d) (s : State) :
    s.checkClaim.fault.has d = s.fault.has d := by
  unfold State.checkClaim
  split
  · rfl
  · exact FaultSet.has_add_of_ne h

theorem keepsPoll_checkClaim (s : State) : KeepsPoll s s.checkClaim := by
  obtain ⟨new, grows, -⟩ := grows_checkClaim s
  exact ⟨grows.cfg, grows.script, by rw [checkClaim_blk], by rw [checkClaim_blk], by rw [checkClaim_blk]⟩

/-- A gated register whose gate is open belongs to a selected UART. -/
theorem usel_of_gateFault_none {s : State} {r : Reg} (hr : r.gated = true) (h : s.gateFault r = none) :
    s.usel = true := by
  by_contra hsel
  rw [gateFault_unselected hr (Bool.not_eq_true _ ▸ hsel)] at h
  cases h

/-- An access of the host of a mapped register: the operation of its view, then the counter moves on. -/
theorem host_access {s s' : State} {r : Reg} {we : Bool} {v : Word} (hwf : s.cfg.wf = true)
    (h : onNext State.advance (busTxn (mkTxn we (s.cfg.map.off r) v) s.checkClaim) = .next s') :
    ∃ u, exec (if we then writeView v r else readView r) s.checkClaim = .next u ∧ s' = { u with hpc := s.hpc + 1 } := by
  obtain ⟨u, -, hexec, -⟩ := exec_access (if we then writeView v r else readView r) s.checkClaim
  rw [onNext_advance_txn ((busTxn_checkClaim hwf we r v).trans hexec)] at h
  cases h
  exact ⟨u, hexec, rfl⟩

/-- A read of line status keeps what an earlier one promised; it returns the line-status word while selected, and F1 is
the one code it can record. -/
theorem exec_rdLsr_spec {s s' : State} (h : exec .rdLsr s = .next s') : KeepsPoll s s' ∧
    (∃ v, s'.acc = some v ∧ (s.usel = true → v = s.lsrWord)) ∧
    ∀ d, FaultCode.f1 ≠ d → s'.fault.has d = s.fault.has d := by
  cases hsel : s.usel with
  | false =>
    rw [exec_read_gated (i := .rdLsr) (gateFault_unselected rfl hsel) rfl] at h
    cases h
    exact ⟨⟨rfl, rfl, rfl, le_rfl, le_rfl⟩, ⟨_, rfl, fun hno => nomatch hno⟩, fun d => FaultSet.has_add_of_ne⟩
  | true =>
    rw [exec_rdLsr hsel] at h
    cases h
    have hview : KeepsPoll s (readLsr s).2 ∧ (readLsr s).2.fault = s.fault := by
      rw [readLsr]
      cases s.cfg.lsrCor <;> exact ⟨⟨rfl, rfl, rfl, le_rfl, le_rfl⟩, rfl⟩
    obtain ⟨hkeeps, hfault⟩ := hview
    exact ⟨{ hkeeps with }, ⟨_, rfl, fun _ => rfl⟩,
      fun d _ => congrArg (FaultSet.has · d) hfault⟩

/-- The host's poll of line status. -/
theorem hostRd_lsr_spec {s s' : State} (hwf : s.cfg.wf = true) (h : hostRd .lsr s = .next s') : KeepsPoll s s' ∧
    s'.hpc = s.hpc + 1 ∧ (∃ v, s'.acc = some v ∧ (s.usel = true → v = s.lsrWord)) ∧
    ∀ d, FaultCode.f1 ≠ d → FaultCode.f8 ≠ d → s'.fault.has d = s.fault.has d := by
  obtain ⟨u, hexec, rfl⟩ := host_access (r := .lsr) (we := false) hwf h
  have hclaim := keepsPoll_checkClaim s
  have hword : s.checkClaim.lsrWord = s.lsrWord := by unfold State.checkClaim; split <;> rfl
  obtain ⟨hkeeps, ⟨v, hacc, hv⟩, hfault⟩ := exec_rdLsr_spec hexec
  rw [hclaim.usel, hword] at hv
  exact ⟨{ hclaim.trans hkeeps with }, rfl, ⟨v, hacc, hv⟩,
    fun d h1 h8 => (hfault d h1).trans (checkClaim_has h8 s)⟩

/-- The gate's codes are not those of the view of `DATA`. -/
theorem gateFault_ne {s : State} {r : Reg} {c : FaultCode} (h : s.gateFault r = some c) : c ≠ .f4 ∧ c ≠ .f5 := by
  rcases gateFault_cases s r with hno | hf1 | hf6
  · rw [hno] at h
    cases h
  · rw [hf1] at h
    cases h
    decide
  · rw [hf6] at h
    cases h
    decide

/-- A write of `DATA` that finds room, if it gets to the queue at all, records no F4 (R173). -/
theorem exec_wrThr_f4 {s s' : State} {v : Word} (hroom : s.usel = true → s.blk.txq.length < s.cfg.txDepth)
    (h : exec (.wrThr v) s = .next s') : s'.fault.has .f4 = s.fault.has .f4 := by
  cases hgate : s.gateFault .data with
  | some c =>
    rw [exec_write_gated (i := .wrThr v) hgate rfl] at h
    cases h
    exact FaultSet.has_add_of_ne (gateFault_ne hgate).1
  | none =>
    have hlt := hroom (usel_of_gateFault_none rfl hgate)
    rw [exec, execWrThr, busWrite_open _ _ hgate, writeThr, if_neg hlt.ne] at h
    cases h
    rfl

/-- A read of `DATA` that finds a character, if it gets to the queue at all, records no F5 (R170). -/
theorem exec_rdRbr_f5 {s s' : State} (hdata : s.usel = true → 0 < s.blk.rxq.length)
    (h : exec .rdRbr s = .next s') : s'.fault.has .f5 = s.fault.has .f5 := by
  cases hgate : s.gateFault .data with
  | some c =>
    rw [exec_read_gated (i := .rdRbr) hgate rfl] at h
    cases h
    exact FaultSet.has_add_of_ne (gateFault_ne hgate).2
  | none =>
    obtain ⟨c, rest, hq⟩ := List.exists_cons_of_length_pos (hdata (usel_of_gateFault_none rfl hgate))
    rw [exec, execRdRbr, busRead_open _ hgate, readRbr, hq] at h
    cases h
    rfl

/-! ### An access of `DATA` that a poll makes safe -/

/-- The host's operation `op` on `DATA` does not record `code` while selected if `ready` holds; a set bit of line status
under `mask` promises `ready`, and what keeps the poll keeps it. -/
structure PolledAccess (mask : Word) (op : HostOp) (code : FaultCode) (ready : State → Prop) : Prop where
  promised : ∀ {s : State}, s.cfg.wf = true → s.lsrWord &&& mask ≠ 0 → ready s
  kept : ∀ {s s' : State}, KeepsPoll s s' → ready s → ready s'
  own : code = .f4 ∨ code = .f5
  safe : ∀ {s s' : State}, s.cfg.wf = true → (s.usel = true → ready s) → hostOp op s = .next s' →
    s'.fault.has code = s.fault.has code ∧ s'.hpc = s.hpc + 1

/-- There is room in the transmit queue. -/
def State.hasRoom (s : State) : Prop := s.blk.txq.length < s.cfg.txDepth

/-- There is a character in the receive queue. -/
def State.hasData (s : State) : Prop := 0 < s.blk.rxq.length

/-- A one-bit mask tests its bit. -/
theorem getLsbD_of_and_twoPow {w : Word} {i : Nat} (h : w &&& BitVec.twoPow 32 i ≠ 0) : w.getLsbD i = true := by
  by_contra hbit
  rw [BitVec.and_twoPow, if_neg hbit] at h
  exact h rfl

/-- Bit 5 of line status promises room, for `THRE_LEVEL` is below `TX_DEPTH` (R11, R175). -/
theorem polledAccess_wrThr (v : Word) : PolledAccess 0x20 (.wr .thr v) .f4 State.hasRoom where
  promised := by
    intro s hwf hbit
    obtain ⟨-, -, -, -, -, hlevel, -⟩ := Cfg.wf_iff.mp hwf
    obtain ⟨-, -, -, -, -, hthre, -⟩ := lsrWord_bits s
    exact (of_decide_eq_true (hthre.symm.trans (getLsbD_of_and_twoPow (i := 5) hbit))).trans_lt hlevel
  kept := by
    intro s s' hkeeps hroom
    rw [State.hasRoom, hkeeps.cfg]
    exact hkeeps.txq.trans_lt hroom
  own := .inl rfl
  safe := by
    intro s s' hwf hroom h
    obtain ⟨u, hexec, rfl⟩ := host_access (r := .data) (we := true) hwf h
    have hclaim := keepsPoll_checkClaim s
    refine ⟨(exec_wrThr_f4 (fun hsel => ?_) hexec).trans (checkClaim_has (by decide) s), rfl⟩
    rw [checkClaim_blk, checkClaim_cfg]
    exact hroom (hclaim.usel ▸ hsel)

/-- Bit 0 of line status promises a character (R176). -/
theorem polledAccess_rdRbr : PolledAccess 0x01 (.rd .rbr) .f5 State.hasData where
  promised := by
    intro s _ hbit
    have hdr : s.dr = true := (lsrWord_bits s).1.symm.trans (getLsbD_of_and_twoPow (i := 0) hbit)
    exact of_decide_eq_true (p := 0 < s.blk.rxq.length) hdr
  kept := fun hkeeps hdata => hdata.trans_le hkeeps.rxq
  own := .inr rfl
  safe := by
    intro s s' hwf hdata h
    obtain ⟨u, hexec, rfl⟩ := host_access (r := .data) (we := false) hwf h
    have hclaim := keepsPoll_checkClaim s
    refine ⟨(exec_rdRbr_f5 (fun hsel => ?_) hexec).trans (checkClaim_has (by decide) s), rfl⟩
    rw [checkClaim_blk]
    exact hdata (hclaim.usel ▸ hsel)

/-! ### Where the host stands in the operation -/

/-- Where the host stands in an operation that starts at `p`, polls, accesses `DATA` and ends at `stop`, and what the
poll has promised by then. -/
inductive PollPhase (mask : Word) (ready : State → Prop) (p stop : Nat) (t : State) : Prop where
  | poll (pc : t.hpc = p)
  | test (v : Word) (pc : t.hpc = p + 1) (acc : t.acc = some v)
      (promise : t.usel = true → v &&& mask ≠ 0 → ready t)
  | access (pc : t.hpc = p + 2) (promise : t.usel = true → ready t)
  | done (pc : p + 2 < t.hpc) (le : t.hpc ≤ stop)

/-- The invariant of the run from `s` through the operation. -/
structure DuringPoll (mask : Word) (code : FaultCode) (ready : State → Prop) (p stop : Nat) (s t : State) : Prop where
  cfg : t.cfg = s.cfg
  script : t.script = s.script
  fault : t.fault.has code = s.fault.has code
  phase : PollPhase mask ready p stop t

/-- The host's step at an operation of the script. -/
theorem hostStep_at {t : State} {op : HostOp} (h : t.script[t.hpc]? = some op) : hostStep t = hostOp op t := by
  rw [hostStep, State.fetch, h]

/-- RET8 moves the counter on, and F9 is the one code it can record (R286). -/
theorem hostRet8_frame (t : State) : (hostRet8 t).hpc = t.hpc + 1 ∧
    ∀ d, FaultCode.f9 ≠ d → (hostRet8 t).fault.has d = t.fault.has d := by
  unfold hostRet8
  split
  · exact ⟨rfl, fun d => FaultSet.has_add_of_ne⟩
  · exact ⟨rfl, fun _ _ => rfl⟩

section Operation

variable {mask : Word} {op : HostOp} {code : FaultCode} {ready : State → Prop} {p : Nat} {s : State}
  {more : List HostOp} (access : PolledAccess mask op code ready) (hwf : s.cfg.wf = true) (hmore : ∀ o ∈ more, o = .ret8)
  (hscript : ∀ j, j < (poll p .lsr mask ++ op :: more).length →
    s.script[p + j]? = (poll p .lsr mask ++ op :: more)[j]?)
include access

/-- A turn that disturbs nothing leaves the host where it stood, with what it was promised. -/
theorem DuringPoll.undisturbed {stop : Nat} {t t' : State} (u : Undisturbed t t')
    (h : DuringPoll mask code ready p stop s t) : DuringPoll mask code ready p stop s t' where
  cfg := u.cfg.trans h.cfg
  script := u.script.trans h.script
  fault := u.fault ▸ h.fault
  phase := by
    have husel := u.usel
    cases h.phase with
    | poll pc => exact .poll (u.hpc.trans pc)
    | test v pc acc promise =>
      exact .test v (u.hpc.trans pc) (u.acc.trans acc)
        fun hsel hbit => access.kept u.toKeepsPoll (promise (husel ▸ hsel) hbit)
    | access pc promise =>
      exact .access (u.hpc.trans pc) fun hsel => access.kept u.toKeepsPoll (promise (husel ▸ hsel))
    | done pc le => exact .done (u.hpc ▸ pc) (u.hpc ▸ le)

include hwf hmore hscript

/-- The host's step inside the operation. -/
theorem DuringPoll.hostStep {t t' : State} (h : DuringPoll mask code ready p (p + 3 + more.length) s t)
    (hin : t.hpc ≠ p + 3 + more.length) (hstep : hostStep t = .next t') :
    DuringPoll mask code ready p (p + 3 + more.length) s t' := by
  obtain ⟨hcfg, hscr, hfault, hphase⟩ := h
  have hwft : t.cfg.wf = true := hcfg ▸ hwf
  have hf1 : FaultCode.f1 ≠ code := by rintro rfl; simpa using access.own
  have hf8 : FaultCode.f8 ≠ code := by rintro rfl; simpa using access.own
  have hf9 : FaultCode.f9 ≠ code := by rintro rfl; simpa using access.own
  obtain ⟨new, grows, -⟩ := hostStep_spec hstep
  have hat : ∀ j o, t.hpc = p + j → (poll p .lsr mask ++ op :: more)[j]? = some o → hostOp o t = .next t' := by
    intro j o hpc ho
    rw [← hostStep_at, hstep]
    rw [hscr, hpc, hscript j (List.getElem?_eq_some_iff.mp ho).1, ho]
  suffices t'.fault.has code = t.fault.has code ∧ PollPhase mask ready p (p + 3 + more.length) t' from
    ⟨grows.cfg.trans hcfg, grows.script.trans hscr, this.1.trans hfault, this.2⟩
  cases hphase with
  | poll pc =>
    obtain ⟨hkeeps, hpc, ⟨v, hacc, hv⟩, hsame⟩ := hostRd_lsr_spec hwft (hat 0 _ pc rfl)
    refine ⟨hsame code hf1 hf8, .test v (by rw [hpc, pc]) hacc fun hsel hbit => access.kept hkeeps ?_⟩
    rw [hv (hkeeps.usel ▸ hsel)] at hbit
    exact access.promised hwft hbit
  | test v pc acc promise =>
    have hbrz : Host.Outcome.next (hostBrz mask p t) = .next t' := hat 1 _ pc rfl
    rw [hostBrz_some acc] at hbrz
    by_cases hbit : v &&& mask = 0
    · rw [if_pos hbit] at hbrz
      cases hbrz
      exact ⟨rfl, .poll rfl⟩
    · rw [if_neg hbit] at hbrz
      cases hbrz
      exact ⟨rfl, .access (congrArg Nat.succ pc) fun hsel =>
        access.kept (s := t) ⟨rfl, rfl, rfl, le_rfl, le_rfl⟩ (promise hsel hbit)⟩
  | access pc promise =>
    obtain ⟨hsame, hpc⟩ := access.safe hwft promise (hat 2 op pc rfl)
    exact ⟨hsame, .done (by omega) (by omega)⟩
  | done pc le =>
    obtain ⟨i, hi⟩ : ∃ i, t.hpc = p + (i + 3) := ⟨t.hpc - p - 3, by omega⟩
    have hlt : i < more.length := by omega
    have hret := hat (i + 3) _ hi (List.getElem?_eq_getElem hlt)
    rw [hmore _ (List.getElem_mem hlt)] at hret
    cases hret
    obtain ⟨hpc, hsame⟩ := hostRet8_frame t
    exact ⟨hsame code hf9, .done (by omega) (by omega)⟩

/-- While the host is in the operation, `code` is not recorded, whatever the other agents do but for a `RESET`. -/
theorem run_polled_fault {k : Nat} {s' : State} (hpc : s.hpc = p)
    (hin : ∀ j t, j < k → Host.Core.run core j s = .next t → t.hpc ≠ p + 3 + more.length)
    (hrun : Host.Core.run core k s = .next s') (hreset : Event.reset ∉ s'.hist.drop s.hist.length) :
    s'.fault.has code = s.fault.has code := by
  refine (run_keeps_until (P := DuringPoll mask code ready p (p + 3 + more.length) s) ?_ k
    ⟨rfl, rfl, rfl, .poll hpc⟩ hin hrun hreset).fault
  intro t t' h hne hstep hno
  obtain hhost | hother := step_host_or_undisturbed hstep hno
  · have htake := h.undisturbed access (undisturbed_takeTurn t)
    exact htake.hostStep access hwf hmore hscript (takeTurn_hpc t ▸ hne) hhost
  · exact h.undisturbed access hother

end Operation

/-- Settles O52: the poll promises room, which every turn but a `RESET` keeps until the write. -/
theorem writeByteNeverOverflows : Obligations.WriteByteNeverOverflows := by
  intro s b p k s' hinv hpc hscript hin hrun hreset
  exact run_polled_fault (polledAccess_wrThr (zext b)) (State.inv_iff.mp hinv).1 (more := []) (by simp) hscript hpc hin
    hrun hreset

/-- Settles O53: the poll promises a character, which every turn but a `RESET` keeps until the read. -/
theorem readByteNeverReadsEmpty : Obligations.ReadByteNeverReadsEmpty := by
  intro s p k s' hinv hpc hscript hin hrun hreset
  exact run_polled_fault polledAccess_rdRbr (State.inv_iff.mp hinv).1 (more := [.ret8]) (by simp) hscript hpc hin hrun
    hreset

end Sys2Proof.Machine

/-! SUPPORT. Proofs of the statements about INIT (47_driver_protocol.md R300 to R302): a claimed host whose operations
follow one another, one masked set of a stored register as two of its steps (R290), and INIT as five of these and three
writes. -/

namespace Sys2Proof.Machine

/-! ### Host steps that follow one another -/

/-- A run after a run. -/
theorem run_add : ∀ (k : Nat) {m : Nat} {s t u : State}, Host.Core.run core k s = .next t →
    Host.Core.run core m t = .next u → Host.Core.run core (k + m) s = .next u
  | 0, m, s, t, u, hk, hm => by
    cases hk
    rwa [Nat.zero_add]
  | k + 1, m, s, t, u, hk, hm => by
    obtain ⟨w, hstep, hrest⟩ := run_succ_iff.mp hk
    rw [Nat.succ_add]
    exact run_succ_iff.mpr ⟨w, hstep, run_add k hrest hm⟩

/-- A claimed host about to perform `ops` in turns that follow one another; `rest` are the turns after that. -/
structure AboutTo (ops : List HostOp) (rest : List Turn) (s : State) : Prop where
  wf : s.cfg.wf = true
  claimed : s.claimed = true
  turns : s.turns = List.replicate ops.length .host ++ rest
  script : ops <+: s.script.drop s.hpc

/-- No stored bit asks for a feature that is refused when it is written back (R329). -/
def Block.asksNothing (b : Block) : Prop :=
  b.lcr.getLsbD 6 = false ∧ b.mcr.getLsbD 4 = false ∧ b.cntl.getLsbD 2 = false ∧ b.cntl.getLsbD 3 = false

/-- From `s` to `s'` in `n` steps of the host, which fault in nothing and touch neither the engines nor the output. -/
structure HostRun (n : Nat) (s s' : State) : Prop where
  run : Host.Core.run core n s = .next s'
  cfg : s'.cfg = s.cfg
  script : s'.script = s.script
  claimed : s'.claimed = s.claimed
  hpc : s'.hpc = s.hpc + n
  turns : s'.turns = s.turns.drop n
  fault : s'.fault = s.fault
  lineOut : s'.lineOut = s.lineOut
  out : s'.out = s.out
  quiet : Block.asksNothing s.blk → Block.asksNothing s'.blk ∧ s'.refused = s.refused

theorem HostRun.trans {n m : Nat} {s t u : State} (h : HostRun n s t) (k : HostRun m t u) : HostRun (n + m) s u where
  run := run_add n h.run k.run
  cfg := k.cfg.trans h.cfg
  script := k.script.trans h.script
  claimed := k.claimed.trans h.claimed
  hpc := by rw [k.hpc, h.hpc, Nat.add_assoc]
  turns := by rw [k.turns, h.turns, List.drop_drop]
  fault := k.fault.trans h.fault
  lineOut := k.lineOut.trans h.lineOut
  out := k.out.trans h.out
  quiet := fun hs => by
    obtain ⟨ht, hst⟩ := h.quiet hs
    obtain ⟨hu, htu⟩ := k.quiet ht
    exact ⟨hu, htu.trans hst⟩

/-- After the first operations the host is about to perform the others. -/
theorem AboutTo.after {first ops : List HostOp} {rest : List Turn} {s s' : State}
    (h : AboutTo (first ++ ops) rest s) (hrun : HostRun first.length s s') : AboutTo ops rest s' where
  wf := hrun.cfg ▸ h.wf
  claimed := hrun.claimed.trans h.claimed
  turns := by
    rw [hrun.turns, h.turns, List.length_append, List.replicate_add, List.append_assoc]
    exact List.drop_left' List.length_replicate
  script := by
    obtain ⟨tail, htail⟩ := h.script
    rw [hrun.script, hrun.hpc, ← List.drop_drop, ← htail, List.append_assoc, List.drop_left]
    exact List.prefix_append ops tail

/-- The next step of such a host is its first operation. -/
theorem AboutTo.step {op : HostOp} {ops : List HostOp} {rest : List Turn} {s : State}
    (h : AboutTo (op :: ops) rest s) : step s = hostOp op { s with turns := s.turns.drop 1 } := by
  obtain ⟨tail, htail⟩ := h.script
  have hop : s.script[s.hpc]? = some op := by
    have hget := congrArg (fun l => l[0]?) htail
    simpa using hget.symm
  have hturn : s.turns = .host :: s.turns.drop 1 := by
    rw [h.turns]
    rfl
  exact step_host hturn hop

/-! ### One access of such a host -/

/-- With a claim the ownership check passes. -/
theorem checkClaim_claimed {t : State} (h : t.claimed = true) : t.checkClaim = t := by
  rw [checkClaim_eq, if_pos h]

section Open

variable {t : State} (hwf : t.cfg.wf = true) (hclaimed : t.claimed = true)
include hwf hclaimed

/-- A claimed host's access of a mapped register is the operation of its view. -/
theorem busTxn_claimed (we : Bool) (r : Reg) (v : Word) : busTxn (mkTxn we (t.cfg.map.off r) v) t.checkClaim =
    exec (if we then writeView v r else readView r) t := by
  rw [busTxn_checkClaim hwf, checkClaim_claimed hclaimed]

/-- RD of a register whose gate is open. -/
theorem hostRd_open {n : RName} (hopen : t.gateFault (n.reg t.cfg) = none) : hostRd n t =
    .next ((readFn (n.reg t.cfg) t).2.endRead (t.cfg.map.off (n.reg t.cfg)) (readFn (n.reg t.cfg) t).1).advance := by
  rw [hostRd, readTxn, busTxn_claimed hwf hclaimed, exec_view, if_neg Bool.false_ne_true, busRead_open _ hopen]
  rfl

/-- A write through the host of a register whose gate is open. -/
theorem hostWr_open {n : WName} (hopen : t.gateFault (n.reg t.cfg) = none) (w : Word) : hostWr n w t =
    .next ((writeFn (n.reg t.cfg) w t).endWrite (t.cfg.map.off (n.reg t.cfg)) w).advance := by
  rw [hostWr, writeTxn, busTxn_claimed hwf hclaimed, exec_view, if_pos rfl, busWrite_open _ _ hopen]
  rfl

end Open

/-- A write-view sets the block to `b` and faults in nothing; it refuses nothing if no stored bit asks for it. -/
structure Stores (b : Block) (t u : State) : Prop where
  blk : u.blk = b
  fault : u.fault = t.fault
  lineOut : u.lineOut = t.lineOut
  quiet : Block.asksNothing t.blk → Block.asksNothing b ∧ u.refused = t.refused

section Access

variable {ops : List HostOp} {rest : List Turn} {s : State}

/-- RD of a register whose read changes nothing of the block: the word is in `acc`. -/
theorem AboutTo.rd {n : RName} {v : Word} (h : AboutTo (.rd n :: ops) rest s)
    (hopen : s.gateFault (n.reg s.cfg) = none)
    (hread : ∀ t : State, t.cfg = s.cfg → t.blk = s.blk → readFn (n.reg s.cfg) t = (v, t)) :
    ∃ s', HostRun 1 s s' ∧ s'.blk = s.blk ∧ s'.acc = some v := by
  have hstep := h.step.trans (hostRd_open (t := { s with turns := s.turns.drop 1 }) h.wf h.claimed hopen)
  rw [hread { s with turns := s.turns.drop 1 } rfl rfl] at hstep
  exact ⟨_, ⟨run_succ_iff.mpr ⟨_, hstep, rfl⟩, rfl, rfl, rfl, rfl, rfl, rfl, rfl, rfl, fun hs => ⟨hs, rfl⟩⟩, rfl, rfl⟩

/-- A write of a register: WR, or WRM of the merged word. -/
theorem AboutTo.write {op : HostOp} {n : WName} {w : Word} {b : Block} (h : AboutTo (op :: ops) rest s)
    (hop : ∀ t : State, t.acc = s.acc → hostOp op t = hostWr n w t) (hopen : s.gateFault (n.reg s.cfg) = none)
    (hwrite : ∀ t : State, t.cfg = s.cfg → t.blk = s.blk → Stores b t (writeFn (n.reg s.cfg) w t)) :
    ∃ s', HostRun 1 s s' ∧ s'.blk = b := by
  have hstep := h.step.trans ((hop { s with turns := s.turns.drop 1 } rfl).trans
    (hostWr_open (t := { s with turns := s.turns.drop 1 }) h.wf h.claimed hopen w))
  obtain ⟨new, access⟩ := writeFn_access (n.reg s.cfg) w { s with turns := s.turns.drop 1 }
  obtain ⟨hblk, hfault, hline, hquiet⟩ := hwrite { s with turns := s.turns.drop 1 } rfl rfl
  refine ⟨_, ⟨run_succ_iff.mpr ⟨_, hstep, rfl⟩, access.grows.cfg, access.grows.script, access.keeps.claimed,
    congrArg Nat.succ access.keeps.hpc, access.keeps.turns, hfault, hline, access.keeps.out, fun hs => ?_⟩, hblk⟩
  exact ⟨hblk ▸ (hquiet hs).1, (hquiet hs).2⟩

end Access

/-! ### A masked set of a stored register (R290) -/

/-- The register of a name keeps `k` bits, which `get` reads and `put` replaces; a write is refused with `code` if the
bits stored ask for it. -/
structure StoredReg (c : Cfg) (n : RwName) {k : Nat} (get : Block → BitVec k) (put : Block → BitVec k → Block)
    (asks : BitVec k → Bool) (code : RefuseCode) : Prop where
  width : k ≤ 32
  read : ∀ s : State, s.cfg = c → readFn (n.toR.reg c) s = (zext (get s.blk), s)
  write : ∀ (s : State) (w : Word), s.cfg = c →
    writeFn (n.toW.reg c) w s = (s.setBlk (put s.blk (truncTo k w))).refuseIf (asks (truncTo k w)) code
  asks_get : ∀ b, Block.asksNothing b → asks (get b) = false
  asks_put : ∀ b v, Block.asksNothing b → asks v = false → Block.asksNothing (put b v)

/-- The two names of RMW belong to one register (R290). -/
theorem RwName.reg_toW (n : RwName) (c : Cfg) : n.toW.reg c = n.toR.reg c := by cases n <;> rfl

/-- A bit of the merged word is set, or read and not cleared (R284). -/
theorem getLsbD_mergeMasks (a clr set : Word) {i : Nat} (hi : i < 32) :
    (mergeMasks a clr set).getLsbD i = ((a.getLsbD i && !clr.getLsbD i) || set.getLsbD i) := by
  simp [mergeMasks, hi]

/-- The stored bits of the merged word. -/
theorem truncTo_mergeMasks {k : Nat} (hk : k ≤ 32) (x : BitVec k) (clr set : Word) :
    truncTo k (mergeMasks (zext x) clr set) = (x &&& ~~~truncTo k clr) ||| truncTo k set := by
  apply BitVec.eq_of_getLsbD_eq
  intro i hi
  have hi32 : i < 32 := hi.trans_le hk
  rw [truncTo, BitVec.getLsbD_setWidth, getLsbD_mergeMasks _ _ _ hi32]
  simp [truncTo, zext, hi, hi32]

@[simp] theorem refuseIf_fault (bit : Bool) (c : RefuseCode) (s : State) : (s.refuseIf bit c).fault = s.fault := by
  cases bit <;> rfl

@[simp] theorem refuseIf_lineOut (bit : Bool) (c : RefuseCode) (s : State) :
    (s.refuseIf bit c).lineOut = s.lineOut := by
  cases bit <;> rfl

section Rmw

variable {s : State} {n : RwName} {k : Nat} {get : Block → BitVec k} {put : Block → BitVec k → Block}
  {asks : BitVec k → Bool} {code : RefuseCode} {clr set : Word} {v : BitVec k}
  (hreg : StoredReg s.cfg n get put asks code)
  (hv : (get s.blk &&& ~~~truncTo k clr) ||| truncTo k set = v) (hasks : asks (get s.blk) = false → asks v = false)
include hreg hv hasks

/-- The write of the merged word sets the field and leaves the other bits. -/
theorem StoredReg.stores_merge {t : State} (hcfg : t.cfg = s.cfg) (hblk : t.blk = s.blk) :
    Stores (put s.blk v) t (writeFn (n.toW.reg s.cfg) (mergeMasks (zext (get s.blk)) clr set) t) := by
  rw [hreg.write t _ hcfg, truncTo_mergeMasks hreg.width, hv, hblk]
  refine ⟨refuseIf_blk _ _ _, refuseIf_fault _ _ _, refuseIf_lineOut _ _ _, fun hs => ?_⟩
  rw [hblk] at hs
  have hno : asks v = false := hasks (hreg.asks_get _ hs)
  rw [hno]
  exact ⟨hreg.asks_put _ v hs hno, rfl⟩

/-- RMW of a stored register sets its field and leaves the other bits; it refuses nothing if the bits it leaves ask for
nothing. -/
theorem AboutTo.rmw {ops : List HostOp} {rest : List Turn} (h : AboutTo (rmw n clr set ++ ops) rest s)
    (hopen : s.gateFault (n.toR.reg s.cfg) = none) :
    ∃ s', HostRun 2 s s' ∧ AboutTo ops rest s' ∧ s'.blk = put s.blk v := by
  obtain ⟨s1, hrun1, hblk1, hacc1⟩ := AboutTo.rd (n := n.toR) (ops := .wrm n.toW clr set :: ops) h hopen
    fun t hcfg hblk => by rw [hreg.read t hcfg, hblk]
  have h1 : AboutTo (.wrm n.toW clr set :: ops) rest s1 := AboutTo.after (first := [.rd n.toR]) h hrun1
  have hopen1 : s1.gateFault (n.toW.reg s1.cfg) = none := by
    rw [hrun1.cfg, RwName.reg_toW, ← hopen]
    simp [State.gateFault, State.usel, State.dlab, hblk1, hrun1.cfg]
  obtain ⟨s2, hrun2, hblk2⟩ := h1.write (fun t hacc => hostWrm_some (hacc.trans hacc1) n.toW clr set) hopen1
    fun t hcfg hblk => by
      rw [hrun1.cfg] at hcfg ⊢
      exact hreg.stores_merge hv hasks hcfg (hblk.trans hblk1)
  exact ⟨s2, hrun1.trans hrun2, AboutTo.after (first := [.wrm n.toW clr set]) h1 hrun2, hblk2⟩

end Rmw

/-! ### The registers of INIT -/

theorem reg_selw (c : Cfg) : RName.reg c .selw = selReg c.selWord := by
  rw [RName.reg]
  generalize c.selWord = k
  match k with
  | 0 => rfl
  | 1 => rfl

theorem readFn_selReg (k : Fin 2) : readFn (selReg k) = readSel k :=
  match k with
  | 0 => rfl
  | 1 => rfl

theorem writeFn_selReg (k : Fin 2) : writeFn (selReg k) = writeSel k :=
  match k with
  | 0 => rfl
  | 1 => rfl

/-- The select word keeps all its bits and refuses nothing (R161, R162). -/
theorem storedReg_selw (c : Cfg) :
    StoredReg c .selw Block.selw (fun b v => { b with selw := v }) (fun _ => false) .x1 where
  width := le_rfl
  read := by
    rintro s rfl
    rw [RwName.toR, reg_selw, readFn_selReg, readSel_select rfl, zext, BitVec.setWidth_eq]
  write := by
    rintro s w rfl
    rw [RwName.reg_toW, RwName.toR, reg_selw, writeFn_selReg, writeSel_select rfl, truncTo, BitVec.setWidth_eq]
    rfl
  asks_get := fun _ _ => rfl
  asks_put := fun _ _ h _ => h

/-- The pair is gated by nothing (R160). -/
theorem gateFault_selw (s : State) : s.gateFault (RName.reg s.cfg .selw) = none := by
  rw [reg_selw]
  match s.cfg.selWord with
  | 0 => exact gateFault_sel0 s
  | 1 => exact gateFault_sel1 s

/-- A bit that a register stores is the bit written. -/
theorem getLsbD_truncTo {k i : Nat} (hi : i < k) (w : Word) : (truncTo k w).getLsbD i = w.getLsbD i := by
  rw [truncTo, BitVec.getLsbD_setWidth, decide_eq_true hi, Bool.true_and]

theorem storedReg_cntl (c : Cfg) : StoredReg c .cntl Block.cntl (fun b v => { b with cntl := v })
    (fun v => v.getLsbD 2 || v.getLsbD 3) .x3 where
  width := by decide
  read := fun _ _ => rfl
  write := fun _ w _ => by
    rw [getLsbD_truncTo (by decide), getLsbD_truncTo (by decide)]
    rfl
  asks_get := fun _ ⟨_, _, h2, h3⟩ => Bool.or_eq_false_iff.mpr ⟨h2, h3⟩
  asks_put := fun _ _ ⟨hlcr, hmcr, _, _⟩ h => ⟨hlcr, hmcr, Bool.or_eq_false_iff.mp h⟩

theorem storedReg_lcr (c : Cfg) : StoredReg c .lcr Block.lcr (fun b v => { b with lcr := v })
    (fun v => v.getLsbD 6) .x4 where
  width := by decide
  read := fun _ _ => rfl
  write := fun _ w _ => by
    rw [getLsbD_truncTo (by decide)]
    rfl
  asks_get := fun _ ⟨h, _⟩ => h
  asks_put := fun _ _ ⟨_, hrest⟩ h => ⟨h, hrest⟩

theorem storedReg_mcr (c : Cfg) : StoredReg c .mcr Block.mcr (fun b v => { b with mcr := v })
    (fun v => v.getLsbD 4) .x2 where
  width := by decide
  read := fun _ _ => rfl
  write := fun _ w _ => by
    rw [getLsbD_truncTo (by decide)]
    rfl
  asks_get := fun _ ⟨_, h, _⟩ => h
  asks_put := fun _ _ ⟨hlcr, _, hcntl⟩ h => ⟨hlcr, h, hcntl⟩

theorem stores_ier {b : Block} {t : State} (h : t.blk = b) : Stores { b with ier := 0 } t (writeIer 0 t) := by
  subst h
  exact ⟨rfl, rfl, rfl, fun hs => ⟨hs, rfl⟩⟩

theorem stores_fcr {b : Block} {t : State} (h : t.blk = b) :
    Stores { b with txq := [], rxq := [] } t (writeFcr 6 t) := by
  subst h
  exact ⟨rfl, rfl, rfl, fun hs => ⟨hs, rfl⟩⟩

theorem stores_baud {b : Block} {t : State} (h : t.blk = b) (d : Nat) :
    Stores { b with baud := BitVec.ofNat 16 d } t (writeBaud (BitVec.ofNat 32 d) t) := by
  subst h
  rw [writeBaud, truncTo, BitVec.setWidth_ofNat_of_le (by decide)]
  exact ⟨rfl, rfl, rfl, fun hs => ⟨hs, rfl⟩⟩

/-! ### INIT -/

/-- The block that INIT #d leaves (R301). -/
def initBlock (c : Cfg) (d : Nat) (b : Block) : Block :=
  { b with
    selw := b.selw ||| (1#32 <<< c.selBit.val), cntl := b.cntl ||| 0x03#8, lcr := b.lcr ||| 0x03#8,
    mcr := b.mcr &&& ~~~0x02#5, ier := 0#4, baud := BitVec.ofNat 16 d, txq := [], rxq := [] }

/-- INIT with a divisor in range, step by step (R300). -/
theorem initOps_eq {d : Nat} (hd : 1 ≤ d ∧ d ≤ 0xFFFF) (c : Cfg) (ops : List HostOp) : initOps c d ++ ops =
    rmw .selw 0 (1#32 <<< c.selBit.val) ++ (rmw .cntl 0 1 ++ (rmw .lcr 3 3 ++ (rmw .mcr 2 0 ++
      (.wr .ier 0 :: .wr .fcr 6 :: .wr .baud (BitVec.ofNat 32 d) :: (rmw .cntl 0 3 ++ ops))))) := by
  rw [initOps, if_pos hd]
  rfl

theorem initOps_length {d : Nat} (hd : 1 ≤ d ∧ d ≤ 0xFFFF) (c : Cfg) : (initOps c d).length = 13 := by
  rw [initOps, if_pos hd]
  rfl

/-- Nothing cleared: the bits are or-ed in. -/
theorem or_of_clear_none {k : Nat} (x m : BitVec k) : (x &&& ~~~truncTo k 0) ||| m = x ||| m := by
  have h : ~~~truncTo k 0 = BitVec.allOnes k := by simp [truncTo]
  rw [h, BitVec.and_allOnes]

/-- The bits cleared are the bits set: they are or-ed in. -/
theorem or_of_clear_set {k : Nat} (x m : BitVec k) : (x &&& ~~~m) ||| m = x ||| m := by
  ext i hi
  cases h : m[i] <;> simp [h]

/-- Nothing set: the bits are cleared. -/
theorem and_of_set_none {k : Nat} (x m : BitVec k) : (x &&& ~~~m) ||| truncTo k 0 = x &&& ~~~m := by
  have h : truncTo k 0 = 0#k := by simp [truncTo]
  rw [h, BitVec.or_zero]

/-- Or-ing in the select bit selects the UART (R24). -/
theorem usel_of_selw {s : State} {w : Word} (h : s.blk.selw = w ||| (1#32 <<< s.cfg.selBit.val)) : s.usel = true := by
  rw [State.usel, h]
  simp

theorem HostRun.usel {n : Nat} {s t : State} (h : HostRun n s t) (hb : t.blk.selw = s.blk.selw) :
    t.usel = s.usel := by
  rw [State.usel, State.usel, hb, h.cfg]

section Run

variable {ops : List HostOp} {rest : List Turn} {s : State}

/-- The first eight steps of INIT: four masked sets, of which the first selects the UART. -/
theorem init_sets_run (h : AboutTo (rmw .selw 0 (1#32 <<< s.cfg.selBit.val) ++
      (rmw .cntl 0 1 ++ (rmw .lcr 3 3 ++ (rmw .mcr 2 0 ++ ops)))) rest s) :
    ∃ s', HostRun 8 s s' ∧ AboutTo ops rest s' ∧ s'.usel = true ∧ s'.blk = { s.blk with
      selw := s.blk.selw ||| (1#32 <<< s.cfg.selBit.val), cntl := s.blk.cntl ||| 0x01#8,
      lcr := s.blk.lcr ||| 0x03#8, mcr := s.blk.mcr &&& ~~~0x02#5 } := by
  obtain ⟨s1, run1, next1, blk1⟩ := AboutTo.rmw (storedReg_selw _) (or_of_clear_none _ _) id h (gateFault_selw s)
  have sel1 : s1.usel = true := by
    refine usel_of_selw (w := s.blk.selw) ?_
    rw [blk1, run1.cfg, truncTo, BitVec.setWidth_eq]
  obtain ⟨s2, run2, next2, blk2⟩ := AboutTo.rmw (storedReg_cntl _) (or_of_clear_none _ _) (by simp [truncTo]) next1
    (gateFault_other (r := .cntl) sel1 (by decide) (by decide))
  have sel2 : s2.usel = true := (run2.usel (by rw [blk2])).trans sel1
  obtain ⟨s3, run3, next3, blk3⟩ := AboutTo.rmw (storedReg_lcr _) (or_of_clear_set _ _) (by simp [truncTo]) next2
    (gateFault_other (r := .lcr) sel2 (by decide) (by decide))
  have sel3 : s3.usel = true := (run3.usel (by rw [blk3])).trans sel2
  obtain ⟨s4, run4, next4, blk4⟩ := AboutTo.rmw (storedReg_mcr _) (and_of_set_none _ _) (by simp [truncTo]) next3
    (gateFault_other (r := .mcr) sel3 (by decide) (by decide))
  have hrun := run1.trans (run2.trans (run3.trans run4))
  refine ⟨s4, hrun, next4, (run4.usel (by rw [blk4])).trans sel3, ?_⟩
  simp [blk4, blk3, blk2, blk1, truncTo]

/-- The last five steps of INIT: three writes and a masked set. -/
theorem init_writes_run {d : Nat} (h : AboutTo (.wr .ier 0 :: .wr .fcr 6 :: .wr .baud (BitVec.ofNat 32 d) ::
      (rmw .cntl 0 3 ++ ops)) rest s) (hsel : s.usel = true) (hflag : s.blk.lcr.getLsbD 7 = false) :
    ∃ s', HostRun 5 s s' ∧ AboutTo ops rest s' ∧ s'.blk = { s.blk with
      ier := 0, txq := [], rxq := [], baud := BitVec.ofNat 16 d, cntl := s.blk.cntl ||| 0x03#8 } := by
  obtain ⟨s1, run1, blk1⟩ := h.write (n := .ier) (fun _ _ => rfl) (gateFault_clear hsel hflag)
    fun _ _ hb => stores_ier hb
  have next1 := h.after (first := [_]) run1
  have sel1 : s1.usel = true := (run1.usel (by rw [blk1])).trans hsel
  obtain ⟨s2, run2, blk2⟩ := next1.write (n := .fcr) (fun _ _ => rfl)
    (gateFault_other (r := .iirFcr) sel1 (by decide) (by decide)) fun _ _ hb => stores_fcr hb
  have next2 := next1.after (first := [_]) run2
  have sel2 : s2.usel = true := (run2.usel (by rw [blk2])).trans sel1
  obtain ⟨s3, run3, blk3⟩ := next2.write (n := .baud) (fun _ _ => rfl)
    (gateFault_other (r := .baud) sel2 (by decide) (by decide)) fun _ _ hb => stores_baud hb d
  have next3 := next2.after (first := [_]) run3
  have sel3 : s3.usel = true := (run3.usel (by rw [blk3])).trans sel2
  obtain ⟨s4, run4, next4, blk4⟩ := AboutTo.rmw (storedReg_cntl _) (or_of_clear_none _ _) (by simp [truncTo]) next3
    (gateFault_other (r := .cntl) sel3 (by decide) (by decide))
  have hrun := run1.trans (run2.trans (run3.trans run4))
  refine ⟨s4, hrun, next4, ?_⟩
  simp [blk4, blk3, blk2, blk1, truncTo]

/-- INIT with the mode flag clear, its thirteen steps one after the other (R301). -/
theorem init_run {d : Nat} (hd : 1 ≤ d ∧ d ≤ 0xFFFF) (h : AboutTo (initOps s.cfg d ++ ops) rest s)
    (hflag : s.blk.lcr.getLsbD 7 = false) :
    ∃ s', HostRun 13 s s' ∧ AboutTo ops rest s' ∧ s'.blk = initBlock s.cfg d s.blk := by
  rw [initOps_eq hd] at h
  obtain ⟨s1, run1, next1, sel1, blk1⟩ := init_sets_run h
  have hflag1 : s1.blk.lcr.getLsbD 7 = false := by simpa [blk1] using hflag
  obtain ⟨s2, run2, next2, blk2⟩ := init_writes_run next1 sel1 hflag1
  refine ⟨s2, run1.trans run2, next2, ?_⟩
  simp [blk2, blk1, initBlock, BitVec.or_assoc]

end Run

/-! ### The statements -/

/-- The script as the statements about INIT give it. -/
theorem script_at_of_getElem? {ops l : List HostOp} {n m : Nat} (hm : ops.length = m)
    (h : ∀ j, j < m → l[n + j]? = ops[j]?) : ops <+: l.drop n := by
  rw [List.prefix_iff_getElem?]
  intro j hj
  rw [List.getElem?_drop, h j (hm ▸ hj), List.getElem?_eq_getElem hj]

/-- Settles O50: the block INIT leaves, and what the run of the host leaves alone. -/
theorem initReachesItsEndState : Obligations.InitReachesItsEndState := by
  intro s rest d hwf hlo hhi hclaimed hflag hturns hscript
  have hlen := initOps_length ⟨hlo, hhi⟩ s.cfg
  have h : AboutTo (initOps s.cfg d ++ []) rest s := by
    rw [List.append_nil]
    exact ⟨hwf, hclaimed, hlen ▸ hturns, script_at_of_getElem? hlen hscript⟩
  obtain ⟨s', r, hend, hblk⟩ := init_run ⟨hlo, hhi⟩ h hflag
  exact ⟨s', r.run, hblk, r.hpc, hend.turns, r.fault, r.lineOut, r.out, hend.claimed,
    fun hlcr hmcr hc2 hc3 => (r.quiet ⟨hlcr, hmcr, hc2, hc3⟩).2⟩

/-- Settles O51: the registers that INIT sets a second time are those it set, bits or-ed in or cleared. -/
theorem initIsIdempotentOnRegisters : Obligations.InitIsIdempotentOnRegisters := by
  intro s rest d hwf hlo hhi hclaimed hflag hturns hscript
  have hlen : (initOps s.cfg d ++ initOps s.cfg d).length = 26 := by
    rw [List.length_append, initOps_length ⟨hlo, hhi⟩]
  have h : AboutTo (initOps s.cfg d ++ initOps s.cfg d) rest s :=
    ⟨hwf, hclaimed, hlen ▸ hturns, script_at_of_getElem? hlen hscript⟩
  obtain ⟨s1, r1, h1, hblk1⟩ := init_run ⟨hlo, hhi⟩ h hflag
  have hflag1 : s1.blk.lcr.getLsbD 7 = false := by
    rw [hblk1, initBlock]
    simpa using hflag
  obtain ⟨s2, r2, -, hblk2⟩ := init_run (ops := []) ⟨hlo, hhi⟩ (by rw [r1.cfg, List.append_nil]; exact h1) hflag1
  refine ⟨s1, s2, r1.run, (r1.trans r2).run, ?_⟩
  rw [hblk2, hblk1, r1.cfg]
  simp [initBlock, BitVec.or_assoc, BitVec.and_assoc]

end Sys2Proof.Machine

/-! SUPPORT. Proofs of the statements about `RESET` (70_reset_and_hazards.md): its step (R360, R362), the table of reset
values with the first reads after it (R361), and that beside it only a write changes a stored register (R360). -/

namespace Sys2Proof.Machine

/-! ### What changes a stored register -/

/-- A block whose queues, shifter and error flags may differ, and no stored register. -/
def Block.SameRegs (b b' : Block) : Prop :=
  b' = { b with txq := b'.txq, tsr := b'.tsr, rxq := b'.rxq, oe := b'.oe, pe := b'.pe, fe := b'.fe, bi := b'.bi }

/-- Of all effects only a store and a `RESET` reach the stored registers, and each has its event. -/
theorem Effect.sameRegs {s s' : State} {new : List Event} (e : Effect s s' new)
    (hwrite : ∀ off v, Event.bus true off v ∉ new) (hreset : Event.reset ∉ new) : Block.SameRegs s.blk s'.blk := by
  unfold Block.SameRegs
  cases e with
  | store off v ev => exact absurd ev (hwrite off v)
  | reset ev => exact absurd ev hreset
  | quiet blk => rw [blk]
  | pop _ _ _ _ _ blk => rw [blk]
  | push _ _ _ blk => rw [blk]
  | clearErrors blk => rw [blk]
  | fifoClr _ _ _ blk => rw [blk]
  | load _ _ _ _ blk => rw [blk]
  | emit _ _ _ blk => rw [blk]
  | arrive _ _ blk => rw [blk]

/-- Settles O57: a step is one effect, and the two effects that reach a register have their event. -/
theorem onlyHostWritesAndResetChangeRegisters : Obligations.OnlyHostWritesAndResetChangeRegisters := by
  intro s s' hstep hwrite hreset
  obtain ⟨new, grows, effect⟩ := step_spec hstep
  rw [grows.drop] at hwrite hreset
  have hregs := effect.sameRegs hwrite hreset
  rw [Block.SameRegs] at hregs
  rw [hregs]
  exact ⟨rfl, rfl, rfl, rfl, rfl, rfl, rfl⟩

/-! ### The step of `RESET`, and the table of reset values -/

/-- Settles O37: the sets start empty, and the turn sets the block and notes its event. -/
theorem resetStepSetsTheBlockOnly : Obligations.ResetStepSetsTheBlockOnly := by
  refine ⟨⟨rfl, rfl, fun c => by cases c <;> rfl, fun c => by cases c <;> rfl⟩, fun s rest hturn => ?_⟩
  rw [step_turn hturn]
  rfl

/-- The state after reset once `WR_SEL1 1` has selected the UART. -/
def State.resetSelected : State :=
  { State.reset with
    blk := { Block.std with selw := 0x00000001 }, hist := [.bus true (Config.cfg.map.off .sel1) 0x00000001] }

/-- The write of the select word selects the UART and changes nothing else (R162). -/
theorem exec_select_reset : exec (.wrSel1 0x00000001) State.reset = .next State.resetSelected :=
  exec_write_select (k := 1) rfl 0x00000001

theorem resetSelected_usel : State.resetSelected.usel = true := rfl

/-- Line status after reset: both transmit flags are set and nothing else (R361). -/
theorem resetSelected_lsrWord : State.resetSelected.lsrWord = 0x00000060 := by
  have hthre : State.resetSelected.thre = true := decide_eq_true (Nat.zero_le _)
  rw [State.lsrWord, hthre]
  decide

/-- Interrupt identification after reset: nothing is enabled, so nothing is pending (R361). -/
theorem resetSelected_iirWord : State.resetSelected.iirWord = 0x000000C1 := by
  decide

/-- Auxiliary status after reset, outside the three drawn bits: there is room to transmit whatever the depth (R361). -/
theorem resetSelected_statWord (a b c : BitVec 1) :
    State.resetSelected.statWord a b c &&& ~~~0x000000C4#32 = 0x0000030A#32 := by
  have hfull : (State.resetSelected.blk.txq.length == State.resetSelected.cfg.txDepth) = false := rfl
  have hroom : decide (State.resetSelected.blk.txq.length < State.resetSelected.cfg.txDepth) = true :=
    decide_eq_true (Nat.succ_pos _)
  rw [State.statWord, hfull, hroom]
  revert a b c
  decide

/-- Settles O38: the stored rows are those of the reset block, the OPEN parameters decide none of the derived rows, and
the first reads are those of the selected state. -/
theorem resetValuesAreTheTable : Obligations.ResetValuesAreTheTable := by
  have hthre : State.reset.thre = true := decide_eq_true (Nat.zero_le _)
  exact ⟨rfl, rfl, rfl, rfl, rfl, rfl, rfl, rfl, rfl, rfl, rfl, rfl, rfl, rfl, rfl, rfl, rfl, hthre, rfl, rfl, rfl, rfl,
    ⟨_, exec_read_companion (k := 0) (by decide), rfl⟩,
    State.resetSelected, exec_select_reset,
    ⟨_, exec_rdLsr resetSelected_usel, congrArg some resetSelected_lsrWord⟩,
    ⟨_, exec_rdIir resetSelected_usel, congrArg some resetSelected_iirWord⟩,
    ⟨_, _, exec_rdStat resetSelected_usel, rfl, resetSelected_statWord _ _ _⟩⟩

end Sys2Proof.Machine
